-- ==== Sys2Proof/Word.lean ====
section
/-! DEFINITION. What can stand on a port of ALAW-CORE, and the form in which the host asks for an operation. -/

namespace Sys2Proof

/-- An A-law code byte (30_encoding.md R41, R42). Bit 0 is the least significant bit (00_scope.md R10). -/
abbrev Code := BitVec 8

/-- The two input ports (10_state.md R21, R22; no other input exists, R24). -/
inductive Port where
  | encIn
  | decIn
deriving DecidableEq, Repr

/-- What a host drives on a port of `w` bits: at each position a 0 or a 1 (`bits`), or, where `undef` has a 1,
an undefined, floating or conflicting level (70_reset_and_hazards.md R97). `bits` says nothing at those positions. -/
structure Signal (w : Nat) where
  bits : BitVec w
  undef : BitVec w
deriving DecidableEq, Repr

/-- A value whose every bit is 0 or 1. -/
def Signal.ofBits {w : Nat} (v : BitVec w) : Signal w := ⟨v, 0#w⟩

/-- A port that nothing drives: no bit is 0 or 1. -/
def Signal.undriven (w : Nat) : Signal w := ⟨0#w, BitVec.allOnes w⟩

/-- Every bit is 0 or 1 (70_reset_and_hazards.md R97). -/
def Signal.isDefined {w : Nat} (v : Signal w) : Bool := v.undef == 0#w

/-- An operation as the host asks for it, with the pattern it drives (30_encoding.md R38, R45, R46; `w` is W_IN).
An operation is selected by its port, not by opcode bits. A pattern is always the whole port (20_memory.md R32). -/
inductive Request (w : Nat) where
  /-- A value on `enc_in`: ENC. -/
  | onEncIn (v : Signal w)
  /-- A value on `dec_in`: DEC. -/
  | onDecIn (v : Signal 8)
  /-- A value on `enc_in`, whose code the host then passes to `dec_in`: the pseudo-operation RT. -/
  | chained (v : Signal w)
deriving DecidableEq, Repr

/-- Why a request stands for no instruction: the pattern on the named port has a bit that is neither 0 nor 1
(70_reset_and_hazards.md R97). There is no other reason (30_encoding.md R43). -/
inductive DecodeError where
  | undefinedBits (p : Port)
deriving DecidableEq, Repr

end Sys2Proof
end

