-- ==== Sys2Proof/Config.lean ====
section
/-! DEFINITION. The parameters of ALAW-CORE (00_scope.md R6 to R8) and the free values its unsettled outputs show. -/

namespace Sys2Proof

/-- The parameters the spec leaves open. Each legal choice is one hardware; nothing the block does changes them
(10_state.md R18). The bounds are the spec's constraints, so an illegal width cannot be written down. -/
structure Config where
  /-- W_IN, the width of `enc_in` (R6). -/
  wIn : Nat
  /-- W_OUT, the width of `dec_out` (R7). -/
  wOut : Nat
  /-- HAS_CLAMP_FLAG: the port `enc_clamp` exists (R8). -/
  hasClampFlag : Bool
  /-- R6: `W_IN >= 13`. -/
  wIn_ge : 13 ≤ wIn
  /-- R7: `W_OUT >= 13`. -/
  wOut_ge : 13 ≤ wOut
deriving DecidableEq, Repr

/-- The spec's defaults: W_IN = 16, W_OUT = 16, HAS_CLAMP_FLAG = false (R6, R7, R8). -/
def Config.default : Config := ⟨16, 16, false, by decide, by decide⟩

/-- FREE VALUE (log entry 4): what `enc_out` shows at the n-th draw while it is not settled
(70_reset_and_hazards.md R92: "a model treats it as any value (a draw)"). -/
opaque Config.unsettledEncOut : Nat → Code

/-- FREE VALUE (log entry 4): what `enc_clamp` shows at the n-th draw while it is not settled (R92). -/
opaque Config.unsettledEncClamp : Nat → Bool

/-- FREE VALUE (log entry 4): what `dec_out`, of the given width, shows at the n-th draw while it is not settled (R92). -/
opaque Config.unsettledDecOut : (w : Nat) → Nat → BitVec w

end Sys2Proof
end

