-- ==== Sys2Proof/Syntax.lean ====
section
/-! DEFINITION. The operations of ALAW-CORE, one constructor per row of spec/opcode_table.json. -/

namespace Sys2Proof

/-- A transaction in the notation of 30_encoding.md R45 and R46. A sample is the integer the notation writes
(`ENC -90`); the pattern it stands for on a port of W_IN bits is `samplePattern` of Decode.lean. -/
inductive Instr where
  /-- `ENC x`: encode a linear sample into an A-law code (40_encoder.md R47). -/
  | enc (x : Int)
  /-- `DEC c`: decode an A-law code into a linear sample (41_decoder.md R60). -/
  | dec (c : Code)
  /-- `RT x`: the round trip, ENC and then DEC of its result, chained by the host (42_roundtrip.md R70). -/
  | rt (x : Int)
deriving DecidableEq, Repr

end Sys2Proof
end

