-- ==== Sys2Proof/WellFormed.lean ====
section
/-! DEFINITION. Which instructions are the notation of a value on a port. -/

namespace Sys2Proof

/-- `x` is the value of some W_IN-bit two's-complement pattern (30_encoding.md R39; 00_scope.md R11, `sint`). -/
def sampleInRange (w : Nat) (x : Int) : Bool := decide (-2 ^ (w - 1) ≤ x ∧ x < 2 ^ (w - 1))

/-- A sample operand fits the port `enc_in`; every byte is a legal code (30_encoding.md R39, R43). -/
def Instr.wellFormed (c : Config) : Instr → Bool
  | .enc x => sampleInRange c.wIn x
  | .dec _ => true
  | .rt x => sampleInRange c.wIn x

end Sys2Proof
end

