-- ==== Sys2Proof/Decode.lean ====
section
/-! DEFINITION. From what the host drives to an instruction, and back (30_encoding.md R38, R39, R42, R45). -/

namespace Sys2Proof

/-- The value of a sample pattern: `sint` (00_scope.md R11; 30_encoding.md R39). -/
def sampleValue {w : Nat} (v : BitVec w) : Int := v.toInt

/-- The W_IN-bit two's-complement form of an integer (30_encoding.md R45). The notation's other spelling, a
hexadecimal W_IN-bit pattern, is an integer in [0, 2^W_IN) and gives that pattern (DESIGN CHOICE, safe: log
entry 10). -/
def samplePattern (w : Nat) (x : Int) : BitVec w := BitVec.ofInt w x

/-- The instruction a request stands for. The port selects the operation (30_encoding.md R38); a pattern with an
undefined bit stands for none (70_reset_and_hazards.md R97), and every other pattern is legal (R43). -/
def decode {w : Nat} : Request w → Except DecodeError Instr
  | .onEncIn v => if v.isDefined then .ok (.enc (sampleValue v.bits)) else .error (.undefinedBits .encIn)
  | .onDecIn v => if v.isDefined then .ok (.dec v.bits) else .error (.undefinedBits .decIn)
  | .chained v => if v.isDefined then .ok (.rt (sampleValue v.bits)) else .error (.undefinedBits .encIn)

/-- What the host drives for an instruction on a block whose W_IN is `w` (30_encoding.md R45, R46). -/
def encode (w : Nat) : Instr → Request w
  | .enc x => .onEncIn (.ofBits (samplePattern w x))
  | .dec c => .onDecIn (.ofBits c)
  | .rt x => .chained (.ofBits (samplePattern w x))

/-- A row of the opcode table as a request: 8 bits are DEC's row and 16 bits ENC's (spec/opcode_table.json, whose
patterns are written for W_IN = 16). RT's row has the same 16 free bits as ENC's and is no hardware operation
(30_encoding.md R46), so 16 bits are read as ENC (DESIGN CHOICE, safe: log entry 9). No row has another length. -/
def tableRequest (wIn nbits word : Nat) : Option (Request wIn) :=
  if nbits = 8 then some (.onDecIn (.ofBits (BitVec.ofNat 8 word)))
  else if nbits = 16 then some (.onEncIn (.ofBits (BitVec.ofNat wIn word)))
  else none

/-- The instruction the decoder reads from a row's bits, at the table's W_IN = 16. -/
def decodeTableWord (nbits w : Nat) : Option Instr :=
  match tableRequest 16 nbits w with
  | some r => (decode r).toOption
  | none => none

end Sys2Proof
end

