-- ==== Sys2Proof/Machine/Operands.lean ====
section
/-! DEFINITION. The formats of the code byte and the fixed constants (00_scope.md R9; 30_encoding.md R41, R42). -/

namespace Sys2Proof.Machine

/-- CLAMP_MAX, the largest magnitude that is not clamped (00_scope.md R9). -/
def clampMax : Nat := 4095

/-- MASK, the transmission mask (00_scope.md R9). -/
def transmissionMask : Code := 0x55#8

/-- Raw code to wire code, and wire code to raw code: the same XOR (40_encoder.md R56, 41_decoder.md R61). -/
def maskCode (v : Code) : Code := v ^^^ transmissionMask

/-- `raw = {P, SEG, MANT}` (30_encoding.md R41, 40_encoder.md R55). -/
def packRaw (p : Bool) (seg : BitVec 3) (mant : BitVec 4) : Code := BitVec.ofBool p ++ seg ++ mant

/-- P, bit 7 of a raw code (30_encoding.md R41, 41_decoder.md R62). -/
def rawSign (u : Code) : Bool := u.getLsbD 7

/-- SEG, bits 6:4 of a raw code (30_encoding.md R41, 41_decoder.md R62). -/
def rawSeg (u : Code) : BitVec 3 := u.extractLsb' 4 3

/-- MANT, bits 3:0 of a raw code (30_encoding.md R41, 41_decoder.md R62). -/
def rawMant (u : Code) : BitVec 4 := u.extractLsb' 0 4

end Sys2Proof.Machine
end

