-- ==== Sys2Proof/Machine/Decoder.lean ====
section
/-! DEFINITION. The decoder datapath DEC, net by net (41_decoder.md R60 to R67; widths of 10_state.md R26). -/

namespace Sys2Proof.Machine

/-- DEC step 5, `base` ("oneBit") (R63). -/
def segBase (dseg : BitVec 3) : BitVec 12 := if dseg = 0 then 0 else 1#12 <<< (dseg.toNat + 4)

/-- DEC step 4, `rshamt` (R64). -/
def reconShift (dseg : BitVec 3) : BitVec 3 := if dseg ≤ 1 then 0 else dseg - 1

/-- DEC step 6, `step = zext_11({dmant, 1}) << rshamt` (R66). -/
def stepNet (dmant : BitVec 4) (rshamt : BitVec 3) : BitVec 11 :=
  (dmant ++ 1#1).setWidth 11 <<< rshamt.toNat

/-- DEC step 7, `dmag = base + zext_12(step)` (R66). -/
def decMag (dseg : BitVec 3) (dmant : BitVec 4) : BitVec 12 :=
  segBase dseg + (stepNet dmant (reconShift dseg)).setWidth 12

/-- DEC step 8: `(2^W_OUT - zext(dmag)) mod 2^W_OUT` when the sign is set, else `zext(dmag)` (R67). -/
def applySign (w : Nat) (neg : Bool) (dmag : BitVec 12) : BitVec w :=
  if neg then -(dmag.setWidth w) else dmag.setWidth w

/-- The sample DEC gives a raw code (R62 to R67). -/
def sampleOfRaw (w : Nat) (u : Code) : BitVec w := applySign w (rawSign u) (decMag (rawSeg u) (rawMant u))

/-- The function DEC of `in(dec_in)` that `dec_out`, `w` bits wide, presents (R60, R61). -/
def decodeCode (w : Nat) (c : Code) : BitVec w := sampleOfRaw w (maskCode c)

end Sys2Proof.Machine
end

