-- ==== Sys2Proof/Machine/Flags.lean ====
section
/-! DEFINITION. The clamp condition. ALAW-CORE has no architectural flag (10_state.md R17); `clamped` is a net. -/

namespace Sys2Proof.Machine

/-- `clamped`: the magnitude is above 4095 (40_encoder.md R50). It is not latched. -/
def clamped {w : Nat} (magFull : BitVec w) : Bool := decide (clampMax < magFull.toNat)

end Sys2Proof.Machine
end

