-- ==== Sys2Proof/Machine/Encoder.lean ====
section
/-! DEFINITION. The encoder datapath ENC, net by net (40_encoder.md R47 to R56; widths of 10_state.md R25). -/

namespace Sys2Proof.Machine

/-- ENC step 1, `s_neg = x[W_IN-1]` (R48). -/
def signNet {w : Nat} (x : BitVec w) : Bool := x.msb

/-- ENC step 2, the absolute value at full width (R49): exact, the most negative sample included. -/
def magFull {w : Nat} (x : BitVec w) : BitVec w := if signNet x then ~~~x + 1#w else x

/-- ENC step 3, the clamped magnitude (R50). -/
def mag12 {w : Nat} (m : BitVec w) : BitVec 12 := if clamped m then 0xFFF#12 else m.extractLsb' 0 12

/-- ENC step 4, the priority encoder over `mag12[11:5]` (R51). -/
def segSel (m : BitVec 12) : BitVec 3 :=
  if m.getLsbD 11 then 7
  else if m.getLsbD 10 then 6
  else if m.getLsbD 9 then 5
  else if m.getLsbD 8 then 4
  else if m.getLsbD 7 then 3
  else if m.getLsbD 6 then 2
  else if m.getLsbD 5 then 1
  else 0

/-- ENC step 5, `shamt` (R53). -/
def encShift (seg : BitVec 3) : BitVec 3 := if seg = 0 then 1 else seg

/-- ENC step 6, `mant = (mag12 >> shamt)[3:0]` (R54). -/
def encMant (m : BitVec 12) (shamt : BitVec 3) : BitVec 4 := (m >>> shamt.toNat).extractLsb' 0 4

/-- ENC step 7, `raw`, from the sign and the clamped magnitude (R51 to R55). -/
def rawOfMagnitude (neg : Bool) (m : BitVec 12) : Code :=
  packRaw neg (segSel m) (encMant m (encShift (segSel m)))

/-- The code ENC gives a sample, before the mask (R47 to R55). -/
def rawOfSample {w : Nat} (x : BitVec w) : Code := rawOfMagnitude (signNet x) (mag12 (magFull x))

/-- The function ENC of `in(enc_in)` that `enc_out` presents (R47, R56). -/
def encodeSample {w : Nat} (x : BitVec w) : Code := maskCode (rawOfSample x)

/-- The net `clamped` as a function of `in(enc_in)`, which `enc_clamp` presents (R50, R58). -/
def sampleClamped {w : Nat} (x : BitVec w) : Bool := clamped (magFull x)

end Sys2Proof.Machine
end

