-- ==== Sys2Proof/Machine/State.lean ====
section
/-! DEFINITION. The state: the parameters, the input ports, and the host's script. ALAW-CORE itself holds no state
(10_state.md R14 to R20, R28 to R30). -/

namespace Sys2Proof.Machine

/-- A change of the inputs, of one port or of both at once (60_exceptions.md R82). `w` is W_IN. -/
structure Drive (w : Nat) where
  enc : Option (Signal w)
  dec : Option (Signal 8)
deriving DecidableEq, Repr

/-- One action of the host (70_reset_and_hazards.md R93, R94). -/
inductive HostEvent (w : Nat) where
  /-- A transaction: apply the input, wait T_SETTLE, read the output (R94). -/
  | transact (r : Request w)
  /-- Change the inputs without waiting. -/
  | drive (d : Drive w)
  /-- Let T_SETTLE pass with the inputs held. -/
  | wait
deriving DecidableEq, Repr

/-- The input ports of one ALAW-CORE with the parameters `cfg`, and its host. The outputs are not stored: each is a
combinational function of its input port (10_state.md R14; DEDUCED, safe: log entry 7; `Block.encOut`, `Block.decOut`, `Block.encClamp` in
Ops.lean). -/
structure Block (cfg : Config) where
  /-- What stands on `enc_in` (10_state.md R21). -/
  encIn : Signal cfg.wIn
  /-- What stands on `dec_in` (10_state.md R22). -/
  decIn : Signal 8
  /-- `enc_in` has been stable for T_SETTLE (70_reset_and_hazards.md R92, R94). -/
  encStable : Bool
  /-- `dec_in` has been stable for T_SETTLE (R92, R94). -/
  decStable : Bool
  /-- MODEL's own: what the host is going to do, next action first (log entry 6). -/
  pending : List (HostEvent cfg.wIn)
  /-- MODEL's own: how many values the unsettled outputs have drawn so far (log entry 4). -/
  draw : Nat
deriving DecidableEq, Repr

/-- One ALAW-CORE with its host: the parameters it was built with, and what changes. -/
structure State where
  /-- The parameters W_IN, W_OUT and HAS_CLAMP_FLAG (00_scope.md R6 to R8). No step changes them (10_state.md R18). -/
  config : Config
  /-- The input ports and the host's script. -/
  block : Block config
deriving DecidableEq, Repr

/-- ALAW-CORE raises no exception, and a model "must not fault any input" (60_exceptions.md R79): there is no reason
to stop with a fault, so nobody raises one. DEDUCED, safe: log entry 13. -/
inductive Fault
deriving DecidableEq, Repr

/-- Why a step has no meaning. -/
inductive Refusal where
  /-- Raised by an arm of `exec` for an instruction that has no meaning yet; no arm raises it. Safe. -/
  | notModelled (mnemonic : String)
  /-- Raised by `step` when the host drives a bit that is neither 0 nor 1 on port `p` (70_reset_and_hazards.md R97:
  such an input "is **refused** by the model"). Safe: no claim is made about such a run. -/
  | undefinedInput (p : Port)
deriving DecidableEq, Repr

/-- A block at power-up, before the host has driven anything: no defined input, nothing settled
(70_reset_and_hazards.md R91, R92; DESIGN CHOICE, unsafe: log entry 2; also 3, 4, 6). There is no reset
input (10_state.md R24). -/
def Block.powerUp (cfg : Config) : Block cfg where
  encIn := Signal.undriven cfg.wIn
  decIn := Signal.undriven 8
  encStable := false
  decStable := false
  pending := []
  draw := 0

/-- The machine at power-up, with the spec's default parameters (00_scope.md R6 to R8; DESIGN CHOICE, log
entry 1). -/
def State.reset : State := ⟨Config.default, Block.powerUp Config.default⟩

end Sys2Proof.Machine
end

