-- ==== Sys2Proof/Machine/Ops.lean ====
section
/-! DEFINITION. The operations the meanings share: driving an input, letting it settle, reading an output.
There is no memory, register, exception entry or exception return to operate on (20_memory.md R30, 10_state.md R15,
60_exceptions.md R79, R83, R84). -/

namespace Sys2Proof.Machine

variable {cfg : Config}

/-- `enc_out` and `enc_clamp` are valid: `enc_in` is defined and has been stable for T_SETTLE
(70_reset_and_hazards.md R92, R94). -/
def Block.encSettled (b : Block cfg) : Bool := b.encStable && b.encIn.isDefined

/-- `dec_out` is valid: `dec_in` is defined and has been stable for T_SETTLE (R92, R94). -/
def Block.decSettled (b : Block cfg) : Bool := b.decStable && b.decIn.isDefined

/-- `enc_out`: ENC of `enc_in` once settled, any value before (10_state.md R21; R92). -/
def Block.encOut (b : Block cfg) : Code :=
  if b.encSettled then encodeSample b.encIn.bits else Config.unsettledEncOut b.draw

/-- `enc_clamp`: no port when HAS_CLAMP_FLAG is false; otherwise `clamped` once settled, any value before
(10_state.md R23; 40_encoder.md R58; R92). -/
def Block.encClamp (b : Block cfg) : Option Bool :=
  if cfg.hasClampFlag then
    some (if b.encSettled then sampleClamped b.encIn.bits else Config.unsettledEncClamp b.draw)
  else none

/-- `dec_out`: DEC of `dec_in` once settled, any value before (10_state.md R22; R92). -/
def Block.decOut (b : Block cfg) : BitVec cfg.wOut :=
  if b.decSettled then decodeCode cfg.wOut b.decIn.bits else Config.unsettledDecOut cfg.wOut b.draw

/-- Time passes: what is not settled may show another value (R92; DEDUCED, safe: log
entry 4). -/
def Block.tick (b : Block cfg) : Block cfg := { b with draw := b.draw + 1 }

/-- The host changes the inputs of `d`. A port it changes is no longer stable (R94), even if the value
is the one already there (DESIGN CHOICE, safe: log entry 12). -/
def Block.applyDrive (b : Block cfg) (d : Drive cfg.wIn) : Block cfg :=
  Block.tick { b with
    encIn := d.enc.getD b.encIn
    decIn := d.dec.getD b.decIn
    encStable := b.encStable && d.enc.isNone
    decStable := b.decStable && d.dec.isNone }

/-- T_SETTLE passes with both inputs held: each has been stable for T_SETTLE (R92, R94; DEDUCED: log
entry 11). -/
def Block.settle (b : Block cfg) : Block cfg := Block.tick { b with encStable := true, decStable := true }

/-- A transaction on `enc_in`: input applied, then settled (R94). The output is read by `Block.encOut`. -/
def Block.transactEnc (b : Block cfg) (x : BitVec cfg.wIn) : Block cfg :=
  (b.applyDrive ⟨some (.ofBits x), none⟩).settle

/-- A transaction on `dec_in`: input applied, then settled (R94). The output is read by `Block.decOut`. -/
def Block.transactDec (b : Block cfg) (c : Code) : Block cfg :=
  (b.applyDrive ⟨none, some (.ofBits c)⟩).settle

/-- Every level of an optional drive is 0 or 1; nothing driven is nothing undefined (R97). -/
def driveDefined {w : Nat} (v : Option (Signal w)) : Bool := v.all Signal.isDefined

/-- A bare change of the inputs by the host. An undefined bit is refused (R97), at the moment it is driven
(DEDUCED, safe: log entry 8). -/
def Block.acceptDrive (b : Block cfg) (d : Drive cfg.wIn) : Host.Outcome State Fault Refusal :=
  if driveDefined d.enc then
    if driveDefined d.dec then .next ⟨cfg, b.applyDrive d⟩ else .refused (.undefinedInput .decIn)
  else .refused (.undefinedInput .encIn)

/-- The host's script after its next action has been taken. -/
def Block.popEvent (b : Block cfg) : Block cfg := { b with pending := b.pending.tail }

/-- What `step` refuses a request by (R97). -/
def refusalOf : DecodeError → Refusal
  | .undefinedBits p => .undefinedInput p

/-- The host's script with a row of the opcode table as its next action (log entry 9). -/
def Block.withTableWord (b : Block cfg) (nbits word : Nat) : Block cfg :=
  match tableRequest cfg.wIn nbits word with
  | some r => { b with pending := .transact r :: b.pending }
  | none => b

end Sys2Proof.Machine
end

