-- ==== Sys2Proof/Machine/Codec.lean ====
section
/-! DEFINITION. The meanings of ENC, DEC and RT. Each has an effect on every operand and in every state
(30_encoding.md R43; 60_exceptions.md R79). -/

namespace Sys2Proof.Machine

/-- ENC: the host drives `enc_in` with the two's-complement form of `x` and lets it settle (40_encoder.md R47;
30_encoding.md R45). -/
def execEnc (x : Int) (s : State) : Host.Outcome State Fault Refusal :=
  .next { s with block := s.block.transactEnc (samplePattern s.config.wIn x) }

/-- DEC: the host drives `dec_in` with `c` and lets it settle (41_decoder.md R60). -/
def execDec (c : Code) (s : State) : Host.Outcome State Fault Refusal :=
  .next { s with block := s.block.transactDec c }

/-- RT: ENC of `x`, then DEC of the code read from the settled `enc_out` (42_roundtrip.md R70; 30_encoding.md R46).
One step does both (DEDUCED, safe: log entry 16). -/
def execRt (x : Int) (s : State) : Host.Outcome State Fault Refusal :=
  let b := s.block.transactEnc (samplePattern s.config.wIn x)
  .next { s with block := b.transactDec b.encOut }

end Sys2Proof.Machine
end

