-- ==== Sys2Proof/Machine/Dispatch.lean ====
section
/-! DEFINITION. From an instruction to its meaning. -/

namespace Sys2Proof.Machine

def exec (i : Instr) (s : State) : Host.Outcome State Fault Refusal :=
  match i with
  | .enc x => Sys2Proof.Machine.execEnc x s
  | .dec c => Sys2Proof.Machine.execDec c s
  | .rt x => Sys2Proof.Machine.execRt x s

end Sys2Proof.Machine
end

