-- ==== Sys2Proof/Machine/Step.lean ====
section
/-! DEFINITION. One step: the host's next action. ALAW-CORE fetches nothing; the host starts every transaction
(10_state.md R16; 20_memory.md R37). -/

namespace Sys2Proof.Machine

/-- The host's next action is taken from its script and done. With no action left, time passes and nothing else
(DESIGN CHOICE, safe: log entry 14). -/
def step (s : State) : Host.Outcome State Fault Refusal :=
  match s.block.pending with
  | [] => .next { s with block := s.block.tick }
  | .transact r :: _ =>
    match decode r with
    | .ok i => exec i { s with block := s.block.popEvent }
    | .error e => .refused (refusalOf e)
  | .drive d :: _ => s.block.popEvent.acceptDrive d
  | .wait :: _ => .next { s with block := s.block.popEvent.settle }

/-- `s` with a row of the opcode table as the host's next action, so that the next step runs it (log entry 6). -/
def State.withFetchWord (s : State) (nbits w : Nat) : State := { s with block := s.block.withTableWord nbits w }

end Sys2Proof.Machine
end

