-- ==== Sys2Proof/Machine/ClosedForms.lean ====
section
/-! DEFINITION. The spec's other forms of the same functions: the lookup and binary-search segment selectors
(40_encoder.md R52), the segment-inverse table (41_decoder.md R65) and the integer forms of ENC, DEC and RT
(R47, R60, R70). The machine does not use them; statements compare it with them. -/

namespace Sys2Proof.Machine

/-- SEG_END, the last magnitude of each segment (R52). -/
def segEnd (i : Fin 8) : Nat := #v[31, 63, 127, 255, 511, 1023, 2047, 4095][i]

/-- R52's lookup form: the first i with `m <= SEG_END[i]`, searched upward. -/
def segByTable (m : BitVec 12) : Fin 8 := ((List.finRange 8).find? fun i => m.toNat ≤ segEnd i).getD 7

/-- R52's binary-search form, three comparisons. -/
def segBySearch (m : BitVec 12) : BitVec 3 :=
  if m.toNat ≤ 255 then
    if m.toNat ≤ 63 then (if m.toNat ≤ 31 then 0 else 1) else (if m.toNat ≤ 127 then 2 else 3)
  else
    if m.toNat ≤ 1023 then (if m.toNat ≤ 511 then 4 else 5) else (if m.toNat ≤ 2047 then 6 else 7)

/-- SEG_BASE and SEG_RSHIFT, the segment-inverse table (R65). -/
def segInverse (dseg : Fin 8) : Nat × Nat :=
  #v[(0, 0), (32, 0), (64, 1), (128, 2), (256, 3), (512, 4), (1024, 5), (2048, 6)][dseg]

/-- `M = min(|X|, 4095)` (R47's integer form). -/
def intMag (x : Int) : Nat := min x.natAbs 4095

/-- `seg = (M < 32) ? 0 : floor(log2(M)) - 4` (R47's integer form). -/
def intSeg (m : Nat) : Nat := if m < 32 then 0 else Nat.log2 m - 4

/-- `shamt = max(seg, 1)` (R47's integer form). -/
def intShift (seg : Nat) : Nat := max seg 1

/-- SEG_LO, the first magnitude of a segment (R54). -/
def segLo (seg : Nat) : Nat := if seg = 0 then 0 else 2 ^ (seg + 4)

/-- `mant = floor(M / 2^shamt) mod 16` (R47's integer form). -/
def intMant (m : Nat) : Nat := m / 2 ^ intShift (intSeg m) % 16

/-- R47's integer form: `(128·P + 16·seg + mant) XOR 0x55`. -/
def intEncode (x : Int) : Nat :=
  (128 * (if x < 0 then 1 else 0) + 16 * intSeg (intMag x) + intMant (intMag x)) ^^^ 0x55

/-- R60's integer form of the magnitude, from S and Mt. -/
def intDecMag (s mt : Nat) : Nat :=
  if s = 0 then 2 * mt + 1
  else if s = 1 then 32 + 2 * mt + 1
  else 2 ^ (s + 4) + (2 * mt + 1) * 2 ^ (s - 1)

/-- R60's integer form: the signed result of DEC on a code, with `u = c XOR 0x55` split by division. -/
def intDecode (c : Nat) : Int :=
  let u := c ^^^ 0x55
  let mag : Nat := intDecMag (u / 16 % 8) (u % 16)
  if 128 ≤ u then -(mag : Int) else mag

/-- The upper middle point of the interval of magnitudes that share M's code (R70). -/
def intRoundMag (m : Nat) : Nat :=
  segLo (intSeg m) + intMant m * 2 ^ intShift (intSeg m) + 2 ^ (intShift (intSeg m) - 1)

/-- R70's closed form of RT: negative iff X < 0. -/
def intRoundTrip (x : Int) : Int := if x < 0 then -(intRoundMag (intMag x) : Int) else intRoundMag (intMag x)

end Sys2Proof.Machine
end

