-- ==== Sys2Proof/Safety.lean ====
section
/-! DEFINITION. What a safe run is: the host keeps its duty of driving defined values (70_reset_and_hazards.md R93),
and no step stops. -/

namespace Sys2Proof.Machine

/-- Every bit a request drives is 0 or 1. -/
def requestDefined {w : Nat} : Request w → Bool
  | .onEncIn v => v.isDefined
  | .onDecIn v => v.isDefined
  | .chained v => v.isDefined

/-- Every bit an action of the host drives is 0 or 1 (R93 duty 1; R97). -/
def eventDefined {w : Nat} : HostEvent w → Bool
  | .transact r => requestDefined r
  | .drive d => driveDefined d.enc && driveDefined d.dec
  | .wait => true

/-- The action drives on port `p` a bit that is neither 0 nor 1 (R97). RT drives `enc_in`; what it passes to `dec_in`
is an output of the block and so is defined. -/
def drivesUndefined {w : Nat} (p : Port) : HostEvent w → Bool
  | .transact (.onEncIn v) => p == .encIn && !v.isDefined
  | .transact (.onDecIn v) => p == .decIn && !v.isDefined
  | .transact (.chained v) => p == .encIn && !v.isDefined
  | .drive d => (p == .encIn && !driveDefined d.enc) || (p == .decIn && !driveDefined d.dec)
  | .wait => false

/-- The action does not drive `enc_in`. -/
def sparesEncIn {w : Nat} : HostEvent w → Bool
  | .transact (.onDecIn _) => true
  | .transact _ => false
  | .drive d => d.enc.isNone
  | .wait => true

/-- The action does not drive `dec_in`. -/
def sparesDecIn {w : Nat} : HostEvent w → Bool
  | .transact (.onEncIn _) => true
  | .transact _ => false
  | .drive d => d.dec.isNone
  | .wait => true

/-- The host keeps its first duty throughout its script (R93). -/
def Block.hostDriven {cfg : Config} (b : Block cfg) : Bool := b.pending.all eventDefined

/-- `k` steps from `s` end in `t`: no step is refused. -/
def RunsTo (k : Nat) (s t : State) : Prop := Sys2Proof.core.run k s = .next t

/-- The sample an instruction leaves on `enc_in`. -/
def sampleDriven : Instr → Option Int
  | .enc x => some x
  | .dec _ => none
  | .rt x => some x

/-- The code an instruction leaves on `dec_in`: RT passes the code of its sample on (42_roundtrip.md R70). -/
def codeDriven (w : Nat) : Instr → Option Code
  | .enc _ => none
  | .dec c => some c
  | .rt x => some (encodeSample (samplePattern w x))

/-- A port carries a whole defined value, or nothing drives it (20_memory.md R32; 70_reset_and_hazards.md R97). -/
def signalWhole {w : Nat} (v : Signal w) : Bool := v.isDefined || v == Signal.undriven w

/-- Neither input port carries a value that is defined in part only. -/
def Block.portsWhole {cfg : Config} (b : Block cfg) : Bool := signalWhole b.encIn && signalWhole b.decIn

end Sys2Proof.Machine
end

