-- ==== Sys2Proof/Certificates/Slice0/Obligations.lean ====
section
/-! DEFINITION. The statements for the provers. A state is a pair ⟨cfg, b⟩ of parameters and a block; `X` stands for
`sint` of the pattern an operand drives. -/

open Sys2Proof
open Sys2Proof.Machine

/-! ## The encoder -/

/-- R47: ENC answers a next state in every state and for every operand; `enc_in` holds the operand's two's-complement
form, the output is settled, `enc_out` is R47's integer form and `enc_clamp`, where it exists, shows a magnitude above
4095. -/
def Obligations.EncCompletesWithIntegerForm : Prop :=
  ∀ (cfg : Config) (b : Block cfg) (x : Int),
    let X : Int := (samplePattern cfg.wIn x).toInt
    ∃ b' : Block cfg, exec (.enc x) ⟨cfg, b⟩ = .next ⟨cfg, b'⟩ ∧
      b'.encIn = .ofBits (samplePattern cfg.wIn x) ∧ b'.encSettled = true ∧
      b'.encOut.toNat = intEncode X ∧
      b'.encClamp = (if cfg.hasClampFlag then some (decide (4095 < X.natAbs)) else none)

/-- R48 and R49: the sign net is the top bit and is the sign, and the full-width magnitude is exact for every sample,
the most negative one included. -/
def Obligations.MagnitudeIsExact : Prop :=
  ∀ (w : Nat) (x : BitVec w),
    signNet x = x.getLsbD (w - 1) ∧ (signNet x = true ↔ x.toInt < 0) ∧
    (magFull x).toNat = (if signNet x then (2 ^ w - 1 - x.toNat + 1) % 2 ^ w else x.toNat) ∧
    (magFull x).toNat = x.toInt.natAbs

/-- R50: the clamp is the minimum with 4095; `clamped` is "a bit at or above 12 is set"; with W_IN = 13 the only
clamped sample is -4096. -/
def Obligations.ClampIsMinimum : Prop :=
  (∀ (w : Nat), 13 ≤ w → ∀ m : BitVec w,
    (mag12 m).toNat = min m.toNat 4095 ∧
    (clamped m = true ↔ 4095 < m.toNat) ∧
    (clamped m = true ↔ m.extractLsb' 12 (w - 12) ≠ 0)) ∧
  (∀ x : BitVec 13, sampleClamped x = true ↔ x.toInt = -4096)

/-- R51: segment 0 is the magnitudes below 32, and otherwise the segment is the index of the highest set bit less 4;
bits 4:0 never affect it. -/
def Obligations.SegmentIsHighestSetBit : Prop :=
  (∀ m : BitVec 12, (segSel m = 0 ↔ m.toNat < 32)) ∧
  (∀ (m : BitVec 12) (h : Nat), 5 ≤ h → h ≤ 11 → 2 ^ h ≤ m.toNat → m.toNat < 2 ^ (h + 1) →
    (segSel m).toNat = h - 4) ∧
  (∀ m m' : BitVec 12, m.toNat / 32 = m'.toNat / 32 → segSel m = segSel m')

/-- R52: the lookup form and the binary-search form are the priority encoder, on every magnitude; SEG_END is
2^(i+5) - 1; the segment is the least i whose end is not below the magnitude; so, in every state, either form gives
the segment field of ENC's output. -/
def Obligations.SegmentSelectorFormsAgree : Prop :=
  (∀ m : BitVec 12, (segByTable m).val = (segSel m).toNat ∧ segBySearch m = segSel m) ∧
  (∀ i : Fin 8, segEnd i = 2 ^ (i.val + 5) - 1) ∧
  (∀ (m : BitVec 12) (i : Fin 8), (segSel m).toNat ≤ i.val ↔ m.toNat ≤ segEnd i) ∧
  (∀ (cfg : Config) (b : Block cfg) (x : Int),
    let m := mag12 (magFull (samplePattern cfg.wIn x))
    ∃ b' : Block cfg, exec (.enc x) ⟨cfg, b⟩ = .next ⟨cfg, b'⟩ ∧
      (rawSeg (maskCode b'.encOut)).toNat = (segByTable m).val ∧ rawSeg (maskCode b'.encOut) = segBySearch m)

/-- R53 and R54: the shift, the mantissa as a truncating shift cut to four bits, and R54's law; so, in every state, the
mantissa field of ENC's output is the offset in the segment of the clamped magnitude. -/
def Obligations.MantissaIsOffsetInSegment : Prop :=
  (∀ m : BitVec 12,
    let seg := segSel m
    let shamt := (encShift seg).toNat
    shamt = (if seg = 0 then 1 else seg.toNat) ∧ 1 ≤ shamt ∧ shamt ≤ 7 ∧
    (encMant m (encShift seg)).toNat = m.toNat / 2 ^ shamt % 16 ∧
    (seg = 0 → m.toNat / 2 ^ shamt ≤ 15) ∧
    (seg ≠ 0 → 16 ≤ m.toNat / 2 ^ shamt ∧ m.toNat / 2 ^ shamt ≤ 31) ∧
    segLo seg.toNat ≤ m.toNat ∧
    (encMant m (encShift seg)).toNat = (m.toNat - segLo seg.toNat) / 2 ^ shamt) ∧
  (∀ (cfg : Config) (b : Block cfg) (x : Int),
    let M := intMag (samplePattern cfg.wIn x).toInt
    ∃ b' : Block cfg, exec (.enc x) ⟨cfg, b⟩ = .next ⟨cfg, b'⟩ ∧
      (rawMant (maskCode b'.encOut)).toNat = (M - segLo (intSeg M)) / 2 ^ intShift (intSeg M))

/-- R57: each pair (seg, mant) is produced by exactly its interval of magnitudes, and the nibbles of ENC's output are
R57's: the table's high nibble for the segment, plus 8 for a negative sample, and the mantissa XOR 5. -/
def Obligations.EachCodeHasItsMagnitudeInterval : Prop :=
  (∀ (m : BitVec 12) (seg : BitVec 3) (mant : BitVec 4),
    let shamt := intShift seg.toNat
    (segSel m = seg ∧ encMant m (encShift (segSel m)) = mant) ↔
      (segLo seg.toNat + mant.toNat * 2 ^ shamt ≤ m.toNat ∧
       m.toNat ≤ segLo seg.toNat + (mant.toNat + 1) * 2 ^ shamt - 1)) ∧
  (∀ (cfg : Config) (b : Block cfg) (x : Int),
    let X : Int := (samplePattern cfg.wIn x).toInt
    ∃ b' : Block cfg, exec (.enc x) ⟨cfg, b⟩ = .next ⟨cfg, b'⟩ ∧
      b'.encOut.toNat / 16 =
        [0x5, 0x4, 0x7, 0x6, 0x1, 0x0, 0x3, 0x2].getD (intSeg (intMag X)) 0 + (if X < 0 then 8 else 0) ∧
      b'.encOut.toNat % 16 = intMant (intMag X) ^^^ 0x5)

/-- R58 and R23: `enc_clamp` exists exactly when HAS_CLAMP_FLAG is true and then shows whether the magnitude is above
4095, whatever was driven before; two blocks that differ in the parameter alone, with the same values on their ports,
show the same other outputs. -/
def Obligations.ClampIndicatorShowsClampAndNothingElse : Prop :=
  ∀ (cfg₁ : Config) (b₁ : Block cfg₁) (x : Int), cfg₁.hasClampFlag = true →
    let cfg₀ : Config := { cfg₁ with hasClampFlag := false }
    let b₀ : Block cfg₀ := ⟨b₁.encIn, b₁.decIn, b₁.encStable, b₁.decStable, b₁.pending, b₁.draw⟩
    ∃ (b₁' : Block cfg₁) (b₀' : Block cfg₀),
      exec (.enc x) ⟨cfg₁, b₁⟩ = .next ⟨cfg₁, b₁'⟩ ∧ exec (.enc x) ⟨cfg₀, b₀⟩ = .next ⟨cfg₀, b₀'⟩ ∧
      b₁'.encClamp = some (decide (4095 < (samplePattern cfg₁.wIn x).toInt.natAbs)) ∧ b₀'.encClamp = none ∧
      b₁'.encOut = b₀'.encOut ∧ b₁'.decOut = b₀'.decOut

/-- R41, R42, R55, R62: the fields of the raw code, packed and unpacked, and of the wire code. On ENC's output bit 7 is
the sign, bits 6:4 are SEG XOR 0b101 and bits 3:0 are MANT XOR 0b0101; DEC reads the same fields back. -/
def Obligations.CodeByteFields : Prop :=
  (∀ (p : Bool) (seg : BitVec 3) (mant : BitVec 4),
    (packRaw p seg mant).toNat = (if p then 0x80 else 0) + seg.toNat * 0x10 + mant.toNat) ∧
  (∀ u : Code,
    rawSign u = decide (128 ≤ u.toNat) ∧ (rawSeg u).toNat = u.toNat / 16 % 8 ∧ (rawMant u).toNat = u.toNat % 16 ∧
    packRaw (rawSign u) (rawSeg u) (rawMant u) = u) ∧
  (∀ (cfg : Config) (b : Block cfg) (x : Int),
    let X : Int := (samplePattern cfg.wIn x).toInt
    ∃ b' : Block cfg, exec (.enc x) ⟨cfg, b⟩ = .next ⟨cfg, b'⟩ ∧
      (b'.encOut.getLsbD 7 = true ↔ X < 0) ∧
      (b'.encOut.extractLsb' 4 3 ^^^ 0b101#3).toNat = intSeg (intMag X) ∧
      (b'.encOut.extractLsb' 0 4 ^^^ 0b0101#4).toNat = intMant (intMag X)) ∧
  (∀ c : Code,
    rawSign (maskCode c) = c.getLsbD 7 ∧
    rawSeg (maskCode c) = c.extractLsb' 4 3 ^^^ 0b101#3 ∧
    rawMant (maskCode c) = c.extractLsb' 0 4 ^^^ 0b0101#4)

/-! ## The decoder -/

/-- R60: DEC answers a next state in every state and for every code; `dec_in` holds the code, the output is settled,
and the signed value of `dec_out` is R60's integer form. -/
def Obligations.DecCompletesWithIntegerForm : Prop :=
  ∀ (cfg : Config) (b : Block cfg) (c : Code),
    ∃ b' : Block cfg, exec (.dec c) ⟨cfg, b⟩ = .next ⟨cfg, b'⟩ ∧ b'.decIn = .ofBits c ∧ b'.decSettled = true ∧
      b'.decOut.toInt = intDecode c.toNat

/-- R63, R64, R65 and R66: the segment-inverse table, its relation to the encoder's table and shift, and the no-carry
law: base and step share no bit, so their sum is their OR and fits 12 bits; so, in every state, the magnitude of
`dec_out` is base OR step of the code's fields. -/
def Obligations.DecoderSumNeverCarries : Prop :=
  (∀ (dseg : BitVec 3) (dmant : BitVec 4),
    let base := segBase dseg
    let step := (stepNet dmant (reconShift dseg)).setWidth 12
    (base.toNat, (reconShift dseg).toNat) = segInverse dseg.toFin ∧
    (reconShift dseg).toNat = (encShift dseg).toNat - 1 ∧
    (∀ i : Fin 8, i.val + 1 = dseg.toNat → base.toNat = segEnd i + 1) ∧
    step.toNat = (2 * dmant.toNat + 1) * 2 ^ (reconShift dseg).toNat ∧
    1 ≤ step.toNat ∧ step.toNat ≤ 1984 ∧
    base &&& step = 0 ∧ decMag dseg dmant = base ||| step ∧
    (decMag dseg dmant).toNat = base.toNat + step.toNat ∧ (decMag dseg dmant).toNat ≤ 4032) ∧
  (∀ (cfg : Config) (b : Block cfg) (c : Code),
    let dseg := rawSeg (maskCode c)
    let dmant := rawMant (maskCode c)
    ∃ b' : Block cfg, exec (.dec c) ⟨cfg, b⟩ = .next ⟨cfg, b'⟩ ∧
      b'.decOut.toInt.natAbs = (segInverse dseg.toFin).1 ||| (2 * dmant.toNat + 1) * 2 ^ (segInverse dseg.toFin).2)

/-- R67: applying the sign is exact at every W_OUT of at least 13. -/
def Obligations.SignApplicationIsExact : Prop :=
  ∀ (w : Nat), 13 ≤ w → ∀ (neg : Bool) (dmag : BitVec 12), dmag.toNat ≤ 4032 →
    (applySign w neg dmag).toNat = (if neg then (2 ^ w - dmag.toNat) % 2 ^ w else dmag.toNat) ∧
    (applySign w neg dmag).toInt = (if neg then -(dmag.toNat : Int) else dmag.toNat)

/-- R68 and R40: the range of DEC, never 0; odd magnitudes in segments 0 and 1 and 2^(s-1) modulo 2^s above; negative
exactly when bit 7 of the code is set; bits W_OUT-1 down to 12 of `dec_out` are copies of the sign. -/
def Obligations.DecRangeAndSpacing : Prop :=
  ∀ (cfg : Config) (b : Block cfg) (c : Code),
    ∃ b' : Block cfg, exec (.dec c) ⟨cfg, b⟩ = .next ⟨cfg, b'⟩ ∧
      let v := b'.decOut.toInt
      let seg := (rawSeg (maskCode c)).toNat
      1 ≤ v.natAbs ∧ v.natAbs ≤ 4032 ∧ (v < 0 ↔ c.getLsbD 7 = true) ∧
      (seg ≤ 1 → v.natAbs % 2 = 1) ∧
      (2 ≤ seg → v.natAbs % 2 ^ seg = 2 ^ (seg - 1)) ∧
      (∀ i, 12 ≤ i → i < cfg.wOut → b'.decOut.getLsbD i = decide (v < 0))

/-! ## The round trip -/

/-- R70 and R46: RT answers a next state in every state and for every operand. It is ENC and then DEC of the code read
from `enc_out`, and its value is R70's closed form. -/
def Obligations.RtIsEncThenDecWithClosedForm : Prop :=
  ∀ (cfg : Config) (b : Block cfg) (x : Int),
    let X : Int := (samplePattern cfg.wIn x).toInt
    ∃ b₁ b' : Block cfg, exec (.enc x) ⟨cfg, b⟩ = .next ⟨cfg, b₁⟩ ∧
      exec (.dec b₁.encOut) ⟨cfg, b₁⟩ = .next ⟨cfg, b'⟩ ∧ exec (.rt x) ⟨cfg, b⟩ = .next ⟨cfg, b'⟩ ∧
      b'.encSettled = true ∧ b'.decSettled = true ∧ b'.encOut = b₁.encOut ∧ b'.decIn = .ofBits b'.encOut ∧
      b'.decOut.toInt = intRoundTrip X

/-- R71: the mask undoes itself, so after RT the decoder's unmasked code is the encoder's raw code. -/
def Obligations.MaskUndoesItself : Prop :=
  (∀ v : Code, maskCode v = v ^^^ 0x55#8 ∧ maskCode (maskCode v) = v) ∧
  (∀ (cfg : Config) (b : Block cfg) (x : Int), ∃ b' : Block cfg, exec (.rt x) ⟨cfg, b⟩ = .next ⟨cfg, b'⟩ ∧
    maskCode b'.decIn.bits = rawOfSample (samplePattern cfg.wIn x))

/-- R72: every sample at or beyond 4095 gives 0x2A and every sample at or beyond -4095 gives 0xAA. -/
def Obligations.ClampBoundaryCodes : Prop :=
  ∀ (cfg : Config) (b : Block cfg) (x : Int), sampleInRange cfg.wIn x = true →
    ∃ b' : Block cfg, exec (.enc x) ⟨cfg, b⟩ = .next ⟨cfg, b'⟩ ∧
      (4095 ≤ x → b'.encOut = 0x2A#8) ∧ (x ≤ -4095 → b'.encOut = 0xAA#8)

/-- R73 with 90_conflicts.md C2: for m >= 1 the codes of m and -m differ in bit 7 alone and their round trips are
negatives; 0 is excluded, with code 0x55 and round trip 1. -/
def Obligations.SignSymmetryAboveZero : Prop :=
  (∀ (cfg : Config) (b : Block cfg) (m : Int), 1 ≤ m → m ≤ 2 ^ (cfg.wIn - 1) - 1 →
    ∃ p n : Block cfg, exec (.rt m) ⟨cfg, b⟩ = .next ⟨cfg, p⟩ ∧ exec (.rt (-m)) ⟨cfg, b⟩ = .next ⟨cfg, n⟩ ∧
      p.encOut ^^^ n.encOut = 0x80#8 ∧ n.decOut.toInt = -p.decOut.toInt) ∧
  (∀ (cfg : Config) (b : Block cfg), ∃ b' : Block cfg, exec (.rt 0) ⟨cfg, b⟩ = .next ⟨cfg, b'⟩ ∧
    b'.encOut = 0x55#8 ∧ b'.decOut.toInt = 1)

/-- R74 with 90_conflicts.md C3: for |x| <= 4095 the error of RT is at most half a step of the sample's segment, on the
side R74 gives; beyond, RT is within half a step of the clamped sample. -/
def Obligations.RoundTripErrorAtMostHalfStep : Prop :=
  ∀ (cfg : Config) (b : Block cfg) (x : Int), sampleInRange cfg.wIn x = true →
    ∃ b' : Block cfg, exec (.rt x) ⟨cfg, b⟩ = .next ⟨cfg, b'⟩ ∧
      let half : Int := 2 ^ (intShift (intSeg (intMag x)) - 1)
      let y : Int := b'.decOut.toInt
      (0 ≤ x → x ≤ 4095 → -(half - 1) ≤ y - x ∧ y - x ≤ half) ∧
      (x < 0 → -4095 ≤ x → -half ≤ y - x ∧ y - x ≤ half - 1) ∧
      (4095 < x → -(half - 1) ≤ y - 4095 ∧ y - 4095 ≤ half) ∧
      (x < -4095 → -half ≤ y + 4095 ∧ y + 4095 ≤ half - 1)

/-- R75: RT is non-decreasing over the whole signed domain of `enc_in`; the code byte is not monotone. -/
def Obligations.RoundTripIsMonotone : Prop :=
  (∀ (cfg : Config) (b : Block cfg) (a c : Int),
    sampleInRange cfg.wIn a = true → sampleInRange cfg.wIn c = true → c < a →
    ∃ p q : Block cfg, exec (.rt a) ⟨cfg, b⟩ = .next ⟨cfg, p⟩ ∧ exec (.rt c) ⟨cfg, b⟩ = .next ⟨cfg, q⟩ ∧
      q.decOut.toInt ≤ p.decOut.toInt) ∧
  (∀ (cfg : Config) (b : Block cfg), ∃ (a c : Int) (p q : Block cfg),
    sampleInRange cfg.wIn a = true ∧ sampleInRange cfg.wIn c = true ∧ c < a ∧
    exec (.enc a) ⟨cfg, b⟩ = .next ⟨cfg, p⟩ ∧ exec (.enc c) ⟨cfg, b⟩ = .next ⟨cfg, q⟩ ∧ p.encOut < q.encOut)

/-- R76: decoding any code and encoding the result gives the code back, at every pair of widths. -/
def Obligations.DecThenEncIsIdentity : Prop :=
  ∀ (cfg : Config) (b : Block cfg) (c : Code),
    ∃ b₁ b' : Block cfg, exec (.dec c) ⟨cfg, b⟩ = .next ⟨cfg, b₁⟩ ∧
      sampleInRange cfg.wIn b₁.decOut.toInt = true ∧
      exec (.enc b₁.decOut.toInt) ⟨cfg, b₁⟩ = .next ⟨cfg, b'⟩ ∧ b'.encOut = c

/-- R77: some sample gives each code, DEC's value of it among them; the samples up to magnitude 4095 that ENC sends to
a code are exactly 2^shamt magnitudes in a row, magnitude 0 counted with the non-negative codes; 0xD5 comes from -1
alone, 0x2A from all X >= 3968, 0xAA from all X <= -3968. -/
def Obligations.EncPreimageOfEachCode : Prop :=
  (∀ (cfg : Config) (b : Block cfg) (c : Code),
    ∃ b' : Block cfg, exec (.enc (decodeCode cfg.wOut c).toInt) ⟨cfg, b⟩ = .next ⟨cfg, b'⟩ ∧ b'.encOut = c) ∧
  (∀ (cfg : Config) (b : Block cfg) (c : Code) (x : Int), -4095 ≤ x → x ≤ 4095 →
    let u := maskCode c
    let shamt := intShift (rawSeg u).toNat
    let lo : Int := segLo (rawSeg u).toNat + (rawMant u).toNat * 2 ^ shamt
    ∃ b' : Block cfg, exec (.enc x) ⟨cfg, b⟩ = .next ⟨cfg, b'⟩ ∧
      (b'.encOut = c ↔
        if rawSign u then x < 0 ∧ lo ≤ -x ∧ -x < lo + 2 ^ shamt else 0 ≤ x ∧ lo ≤ x ∧ x < lo + 2 ^ shamt)) ∧
  (∀ (cfg : Config) (b : Block cfg) (x : Int), sampleInRange cfg.wIn x = true →
    ∃ b' : Block cfg, exec (.enc x) ⟨cfg, b⟩ = .next ⟨cfg, b'⟩ ∧
      (b'.encOut = 0xD5#8 ↔ x = -1) ∧ (b'.encOut = 0x2A#8 ↔ 3968 ≤ x) ∧ (b'.encOut = 0xAA#8 ↔ x ≤ -3968))

/-- R78: RT returns its operand exactly when the operand is a value of DEC; 0 never is one. -/
def Obligations.RoundTripFixedPoints : Prop :=
  ∀ (cfg : Config) (b : Block cfg) (x : Int), sampleInRange cfg.wIn x = true →
    ∃ b' : Block cfg, exec (.rt x) ⟨cfg, b⟩ = .next ⟨cfg, b'⟩ ∧
      (b'.decOut.toInt = x ↔
        ∃ (c : Code) (b'' : Block cfg), exec (.dec c) ⟨cfg, b⟩ = .next ⟨cfg, b''⟩ ∧ b''.decOut.toInt = x) ∧
      (x = 0 → b'.decOut.toInt ≠ x)

/-! ## Frames and independence -/

/-- What ENC leaves alone: the parameters, the host's script, `dec_in`, and a settled `dec_out` (R18, R27, R35).
ALAW-CORE has no register, flag or memory to change. -/
def Obligations.EncLeavesDecSideUnchanged : Prop :=
  ∀ (cfg : Config) (b : Block cfg) (x : Int), ∃ b' : Block cfg, exec (.enc x) ⟨cfg, b⟩ = .next ⟨cfg, b'⟩ ∧
    b'.pending = b.pending ∧ b'.decIn = b.decIn ∧
    (b.decSettled = true → b'.decSettled = true ∧ b'.decOut = b.decOut)

/-- What DEC leaves alone: the parameters, the host's script, `enc_in`, and settled `enc_out` and `enc_clamp`
(R18, R27, R35). -/
def Obligations.DecLeavesEncSideUnchanged : Prop :=
  ∀ (cfg : Config) (b : Block cfg) (c : Code), ∃ b' : Block cfg, exec (.dec c) ⟨cfg, b⟩ = .next ⟨cfg, b'⟩ ∧
    b'.pending = b.pending ∧ b'.encIn = b.encIn ∧
    (b.encSettled = true → b'.encSettled = true ∧ b'.encOut = b.encOut ∧ b'.encClamp = b.encClamp)

/-- What RT leaves alone: the parameters and the host's script; `enc_in` holds its operand and `dec_in` the code of its
operand (both ports are RT's, R70), and `enc_clamp` is what ENC of the operand shows. -/
def Obligations.RtWritesBothPortsOnly : Prop :=
  ∀ (cfg : Config) (b : Block cfg) (x : Int), ∃ b' : Block cfg, exec (.rt x) ⟨cfg, b⟩ = .next ⟨cfg, b'⟩ ∧
    b'.pending = b.pending ∧
    b'.encIn = .ofBits (samplePattern cfg.wIn x) ∧
    b'.decIn = .ofBits (encodeSample (samplePattern cfg.wIn x)) ∧
    b'.encClamp = (if cfg.hasClampFlag then some (sampleClamped (samplePattern cfg.wIn x)) else none)

/-- R20: the outputs of a transaction are a function of its operand alone: two blocks with the same parameters,
whatever was driven on them before, whatever stands on their other port and whatever each host does afterwards short of
driving the transaction's own port, show the same outputs. -/
def Obligations.OutputsDependOnOperandAlone : Prop :=
  (∀ (cfg : Config) (b₁ b₂ : Block cfg) (x : Int) (es₁ es₂ : List (HostEvent cfg.wIn)),
    b₁.pending = .transact (encode cfg.wIn (.enc x)) :: es₁ → b₂.pending = .transact (encode cfg.wIn (.enc x)) :: es₂ →
    es₁.all eventDefined = true → es₁.all sparesEncIn = true →
    es₂.all eventDefined = true → es₂.all sparesEncIn = true →
    ∃ b₁' b₂' : Block cfg,
      RunsTo (es₁.length + 1) ⟨cfg, b₁⟩ ⟨cfg, b₁'⟩ ∧ RunsTo (es₂.length + 1) ⟨cfg, b₂⟩ ⟨cfg, b₂'⟩ ∧
      b₁'.encSettled = true ∧ b₂'.encSettled = true ∧
      b₁'.encOut = b₂'.encOut ∧ b₁'.encClamp = b₂'.encClamp) ∧
  (∀ (cfg : Config) (b₁ b₂ : Block cfg) (c : Code) (es₁ es₂ : List (HostEvent cfg.wIn)),
    b₁.pending = .transact (encode cfg.wIn (.dec c)) :: es₁ → b₂.pending = .transact (encode cfg.wIn (.dec c)) :: es₂ →
    es₁.all eventDefined = true → es₁.all sparesDecIn = true →
    es₂.all eventDefined = true → es₂.all sparesDecIn = true →
    ∃ b₁' b₂' : Block cfg,
      RunsTo (es₁.length + 1) ⟨cfg, b₁⟩ ⟨cfg, b₁'⟩ ∧ RunsTo (es₂.length + 1) ⟨cfg, b₂⟩ ⟨cfg, b₂'⟩ ∧
      b₁'.decSettled = true ∧ b₂'.decSettled = true ∧ b₁'.decOut = b₂'.decOut)

/-- R35 over a whole script: after any list of transactions, `enc_out` and `enc_clamp` are ENC's of the last sample
driven and `dec_out` is DEC of the last code driven, whatever the other transactions were and however they were
interleaved. The script, RT's request and RT as one step are the model's (log entries 6, 9, 16). -/
def Obligations.LastTransactionOfEachPortDecides : Prop :=
  ∀ (cfg : Config) (b : Block cfg) (is : List Instr) (rest : List (HostEvent cfg.wIn)),
    b.pending = is.map (fun i => HostEvent.transact (encode cfg.wIn i)) ++ rest →
    ∃ b' : Block cfg, RunsTo is.length ⟨cfg, b⟩ ⟨cfg, b'⟩ ∧ b'.pending = rest ∧
      (∀ x, (is.filterMap sampleDriven).getLast? = some x →
        b'.encSettled = true ∧ b'.encOut = encodeSample (samplePattern cfg.wIn x) ∧
        b'.encClamp = (if cfg.hasClampFlag then some (sampleClamped (samplePattern cfg.wIn x)) else none)) ∧
      (∀ c, (is.filterMap (codeDriven cfg.wIn)).getLast? = some c →
        b'.decSettled = true ∧ b'.decOut = decodeCode cfg.wOut c)

/-- R82 and R92: both inputs changed at once and then held for T_SETTLE give the outputs of the two transactions done
one after the other, in either order. The script, the simultaneous change as one action and the wait are the model's
form of the host (log entries 6, 11, 15). -/
def Obligations.SimultaneousChangesAreTwoTransactions : Prop :=
  ∀ (cfg : Config) (b : Block cfg) (x : Int) (c : Code) (rest : List (HostEvent cfg.wIn)),
    b.pending = .drive ⟨some (.ofBits (samplePattern cfg.wIn x)), some (.ofBits c)⟩ :: .wait :: rest →
    ∃ v t₁ t u₁ u : Block cfg, RunsTo 2 ⟨cfg, b⟩ ⟨cfg, v⟩ ∧
      exec (.enc x) ⟨cfg, b⟩ = .next ⟨cfg, t₁⟩ ∧ exec (.dec c) ⟨cfg, t₁⟩ = .next ⟨cfg, t⟩ ∧
      exec (.dec c) ⟨cfg, b⟩ = .next ⟨cfg, u₁⟩ ∧ exec (.enc x) ⟨cfg, u₁⟩ = .next ⟨cfg, u⟩ ∧
      v.encSettled = true ∧ v.decSettled = true ∧
      v.encOut = t.encOut ∧ v.encClamp = t.encClamp ∧ v.decOut = t.decOut ∧
      v.encOut = u.encOut ∧ v.encClamp = u.encClamp ∧ v.decOut = u.decOut

/-! ## The machine -/

/-- A step runs the decoded instruction: when the host's next action asks for an operation that decodes to `i`, step is
exec of `i` at the state whose script has moved past that action and which is otherwise the same. The script is the
model's form of the host (log entry 6). -/
def Obligations.StepRunsTheDecodedInstruction : Prop :=
  ∀ (cfg : Config) (b : Block cfg) (r : Request cfg.wIn) (rest : List (HostEvent cfg.wIn)) (i : Instr),
    b.pending = .transact r :: rest → decode r = .ok i →
    step ⟨cfg, b⟩ = exec i ⟨cfg, { b with pending := rest }⟩

/-- R97 and R79: a step stops exactly when the host's next action drives a bit that is neither 0 nor 1, and then it is
refused under the name of a port on which the action drives such a bit, `enc_in` if it does so on both; no step faults.
Three points are the model's and not R97's: that the refusal comes when the bit is driven, and which port it names when
both are undefined (log entry 8), and that a step answers a next state when the script is empty (log entry 14). -/
def Obligations.StepRefusesExactlyUndefinedInputs : Prop :=
  ∀ (cfg : Config) (b : Block cfg),
    ((∃ t, step ⟨cfg, b⟩ = .next t) ↔ ∀ e rest, b.pending = e :: rest → eventDefined e = true) ∧
    (∀ r, step ⟨cfg, b⟩ = .refused r ↔
      ∃ p e rest, r = .undefinedInput p ∧ b.pending = e :: rest ∧ eventDefined e = false ∧
        drivesUndefined p e = true ∧ (p = .decIn → drivesUndefined .encIn e = false)) ∧
    (∀ f, step ⟨cfg, b⟩ ≠ .fault f)

/-- R79, R93: a host that drives defined values is never stopped, however many steps it takes. Past the end of its
script a step lets time pass and nothing else, which is the model's choice (log entry 14). -/
def Obligations.DefinedHostIsNeverStopped : Prop :=
  ∀ (k : Nat) (cfg : Config) (b : Block cfg), b.hostDriven = true →
    ∃ b' : Block cfg, RunsTo k ⟨cfg, b⟩ ⟨cfg, b'⟩ ∧ b'.hostDriven = true

/-- Invariant: neither input port ever carries a value that is defined in part only (R32, R97), from every state that
meets it. It rests on two points of the model: an undefined bit is refused when it is driven, by a bare drive too (log
entry 8; R97 does not say when), and a port that nothing drives counts as whole (log entry 2). -/
def Obligations.StepKeepsPortsWhole : Prop :=
  ∀ s t : State, s.block.portsWhole = true → step s = .next t → t.block.portsWhole = true

/-- The invariant holds at power-up, at every choice of parameters. It rests on the model's choice of what stands on
undriven inputs (log entry 2). -/
def Obligations.PowerUpPortsWhole : Prop :=
  State.reset.block.portsWhole = true ∧ ∀ cfg : Config, (Block.powerUp cfg).portsWhole = true

/-- R27, R35 over steps: a step whose action does not drive `enc_in` leaves `enc_in`, and settled `enc_out` and
`enc_clamp`, as they were; the same for `dec_in` and `dec_out`; no step changes the parameters (R18). -/
def Obligations.OutputsChangeOnlyWithTheirInput : Prop :=
  ∀ (cfg : Config) (b : Block cfg) (t : State), step ⟨cfg, b⟩ = .next t →
    ∃ b' : Block cfg, t = ⟨cfg, b'⟩ ∧ b'.pending = b.pending.tail ∧
    ((∀ e rest, b.pending = e :: rest →
        (∃ v, e = .transact (.onDecIn v)) ∨ (∃ v, e = .drive ⟨none, v⟩) ∨ e = .wait) →
      b'.encIn = b.encIn ∧
      (b.encSettled = true → b'.encSettled = true ∧ b'.encOut = b.encOut ∧ b'.encClamp = b.encClamp)) ∧
    ((∀ e rest, b.pending = e :: rest →
        (∃ v, e = .transact (.onEncIn v)) ∨ (∃ v, e = .drive ⟨v, none⟩) ∨ e = .wait) →
      b'.decIn = b.decIn ∧ (b.decSettled = true → b'.decSettled = true ∧ b'.decOut = b.decOut))

/-- R92, R94: a bare drive of an input, of one port alone or of both, leaves that port's outputs unsettled, showing free
values (log entry 4), and leaves a port it does not drive as it was; once T_SETTLE has passed, every output whose input
is defined shows its function, whatever it was before (log entry 11). R94 speaks of an input that changes; that the
outputs are free also when the value driven is the one already there is the model's choice (log entry 12). -/
def Obligations.OutputsAreFreeUntilSettled : Prop :=
  (∀ (cfg : Config) (b : Block cfg) (d : Drive cfg.wIn) (rest : List (HostEvent cfg.wIn)),
    b.pending = .drive d :: rest → eventDefined (.drive d) = true →
    ∃ b' : Block cfg, step ⟨cfg, b⟩ = .next ⟨cfg, b'⟩ ∧
      (∀ v, d.enc = some v → b'.encIn = v ∧ b'.encSettled = false ∧
        ∃ n, b'.encOut = Config.unsettledEncOut n ∧
          b'.encClamp = (if cfg.hasClampFlag then some (Config.unsettledEncClamp n) else none)) ∧
      (d.enc = none → b'.encIn = b.encIn ∧ b'.encSettled = b.encSettled) ∧
      (∀ c, d.dec = some c → b'.decIn = c ∧ b'.decSettled = false ∧
        ∃ n, b'.decOut = Config.unsettledDecOut cfg.wOut n) ∧
      (d.dec = none → b'.decIn = b.decIn ∧ b'.decSettled = b.decSettled)) ∧
  (∀ (cfg : Config) (b : Block cfg) (rest : List (HostEvent cfg.wIn)), b.pending = .wait :: rest →
    ∃ b' : Block cfg, step ⟨cfg, b⟩ = .next ⟨cfg, b'⟩ ∧ b'.encIn = b.encIn ∧ b'.decIn = b.decIn ∧
      (b.encIn.isDefined = true → b'.encSettled = true ∧ b'.encOut = encodeSample b.encIn.bits ∧
        b'.encClamp = (if cfg.hasClampFlag then some (sampleClamped b.encIn.bits) else none)) ∧
      (b.decIn.isDefined = true → b'.decSettled = true ∧ b'.decOut = decodeCode cfg.wOut b.decIn.bits))

/-- R91, R92, and the defaults of R6 to R8: at power-up the parameters are the defaults, no output is settled and each
shows a free value, and the port `enc_clamp` does not exist. That the model starts at the defaults, with nothing driven
and an empty script, is its own choice (log entries 1, 2, 6). -/
def Obligations.PowerUpOutputsUnsettled : Prop :=
  State.reset.config.wIn = 16 ∧ State.reset.config.wOut = 16 ∧ State.reset.config.hasClampFlag = false ∧
  State.reset.block.encSettled = false ∧ State.reset.block.decSettled = false ∧
  (∃ n, State.reset.block.encOut = Config.unsettledEncOut n) ∧
  (∃ n, State.reset.block.decOut = Config.unsettledDecOut State.reset.config.wOut n) ∧
  State.reset.block.encClamp = none

/-! ## Encoding -/

/-- Decoding the encoding of a well-formed instruction gives it back, at every W_IN and every operand (R38, R39, R42,
R45). The spec gives RT no encoding of its own (R46, and its row of the table has ENC's bits): the request an `rt` is
encoded to, `Request.chained`, is the model's choice (log entry 9). -/
def Obligations.DecodeOfEncodeIsIdentity : Prop :=
  ∀ (c : Config) (i : Instr), i.wellFormed c = true → decode (encode c.wIn i) = .ok i

/-- R43 and R44: every request whose bits are 0 or 1 stands for one well-formed instruction, whose encoding is that
request, and which completes in every state; so each of the 2^W_IN patterns of `enc_in` and each of the 256 of `dec_in`
is legal. R43 and R44 speak of ENC's and DEC's operands; that a chained request stands for RT (R46) and is what RT
encodes to is the model's choice (log entry 9). -/
def Obligations.EveryDefinedPatternIsLegal : Prop :=
  ∀ (c : Config) (r : Request c.wIn), requestDefined r = true →
    ∃ i : Instr, decode r = .ok i ∧ i.wellFormed c = true ∧ encode c.wIn i = r ∧
      ∀ s : State, ∃ t, exec i s = .next t

/-- Words written out from R39, R42 and R45: `ENC -90` is 0xFFA6 on a 16-bit port and 0x1FA6 on a 13-bit one, the most
negative sample is 0x8000, `DEC 0xF3` is 0xF3; an undefined bit is rejected (R97). The clause for RT is not the spec's
word: RT has none (R46), and that a chained request with ENC's pattern 0x0028 is `RT 40` is the model's choice (log
entry 9). -/
def Obligations.SampleWordsDecode : Prop :=
  decode (.onEncIn (.ofBits 0b1111111110100110#16)) = .ok (.enc (-90)) ∧
  decode (.onEncIn (.ofBits 0b1111110100110#13)) = .ok (.enc (-90)) ∧
  decode (.onEncIn (.ofBits 0b1000000000000000#16)) = .ok (.enc (-32768)) ∧
  decode (.onDecIn (.ofBits 0b11110011#8) : Request 16) = .ok (.dec 0xF3#8) ∧
  decode (.chained (.ofBits 0b0000000000101000#16)) = .ok (.rt 40) ∧
  decode (.onDecIn ⟨0b11110011#8, 0b00000001#8⟩ : Request 16) = .error (.undefinedBits .decIn)
end

