-- ==== Sys2Proof/Laws/State.lean ====
section
/-! SUPPORT. What each shared operation does to each field of Block, one lemma a field (the parameters are not a field of Block,
so no operation can change them: 10_state.md R18). -/

namespace Sys2Proof.Machine

variable {cfg : Config} (b : Block cfg)

@[simp] theorem Block.tick_encIn : b.tick.encIn = b.encIn := rfl
@[simp] theorem Block.tick_decIn : b.tick.decIn = b.decIn := rfl
@[simp] theorem Block.tick_encStable : b.tick.encStable = b.encStable := rfl
@[simp] theorem Block.tick_decStable : b.tick.decStable = b.decStable := rfl
@[simp] theorem Block.tick_pending : b.tick.pending = b.pending := rfl
@[simp] theorem Block.tick_draw : b.tick.draw = b.draw + 1 := rfl

@[simp] theorem Block.popEvent_encIn : b.popEvent.encIn = b.encIn := rfl
@[simp] theorem Block.popEvent_decIn : b.popEvent.decIn = b.decIn := rfl
@[simp] theorem Block.popEvent_encStable : b.popEvent.encStable = b.encStable := rfl
@[simp] theorem Block.popEvent_decStable : b.popEvent.decStable = b.decStable := rfl
@[simp] theorem Block.popEvent_pending : b.popEvent.pending = b.pending.tail := rfl
@[simp] theorem Block.popEvent_draw : b.popEvent.draw = b.draw := rfl

@[simp] theorem Block.settle_encIn : b.settle.encIn = b.encIn := rfl
@[simp] theorem Block.settle_decIn : b.settle.decIn = b.decIn := rfl
@[simp] theorem Block.settle_encStable : b.settle.encStable = true := rfl
@[simp] theorem Block.settle_decStable : b.settle.decStable = true := rfl
@[simp] theorem Block.settle_pending : b.settle.pending = b.pending := rfl
@[simp] theorem Block.settle_draw : b.settle.draw = b.draw + 1 := rfl

variable (d : Drive cfg.wIn)

@[simp] theorem Block.applyDrive_encIn : (b.applyDrive d).encIn = d.enc.getD b.encIn := rfl
@[simp] theorem Block.applyDrive_decIn : (b.applyDrive d).decIn = d.dec.getD b.decIn := rfl
@[simp] theorem Block.applyDrive_encStable :
    (b.applyDrive d).encStable = (b.encStable && d.enc.isNone) := rfl
@[simp] theorem Block.applyDrive_decStable :
    (b.applyDrive d).decStable = (b.decStable && d.dec.isNone) := rfl
@[simp] theorem Block.applyDrive_pending : (b.applyDrive d).pending = b.pending := rfl
@[simp] theorem Block.applyDrive_draw : (b.applyDrive d).draw = b.draw + 1 := rfl

variable (x : BitVec cfg.wIn)

@[simp] theorem Block.transactEnc_encIn : (b.transactEnc x).encIn = .ofBits x := rfl
@[simp] theorem Block.transactEnc_decIn : (b.transactEnc x).decIn = b.decIn := rfl
@[simp] theorem Block.transactEnc_encStable : (b.transactEnc x).encStable = true := rfl
@[simp] theorem Block.transactEnc_decStable : (b.transactEnc x).decStable = true := rfl
@[simp] theorem Block.transactEnc_pending : (b.transactEnc x).pending = b.pending := rfl
@[simp] theorem Block.transactEnc_draw : (b.transactEnc x).draw = b.draw + 2 := rfl

variable (c : Code)

@[simp] theorem Block.transactDec_encIn : (b.transactDec c).encIn = b.encIn := rfl
@[simp] theorem Block.transactDec_decIn : (b.transactDec c).decIn = .ofBits c := rfl
@[simp] theorem Block.transactDec_encStable : (b.transactDec c).encStable = true := rfl
@[simp] theorem Block.transactDec_decStable : (b.transactDec c).decStable = true := rfl
@[simp] theorem Block.transactDec_pending : (b.transactDec c).pending = b.pending := rfl
@[simp] theorem Block.transactDec_draw : (b.transactDec c).draw = b.draw + 2 := rfl

end Sys2Proof.Machine
end

