-- ==== Sys2Proof/Laws/Ops.lean ====
section
/-! SUPPORT. What the shared operations do to the outputs, said once each. -/

namespace Sys2Proof

@[simp] theorem Signal.bits_ofBits {w : Nat} (v : BitVec w) : (Signal.ofBits v).bits = v := rfl

@[simp] theorem Signal.isDefined_ofBits {w : Nat} (v : BitVec w) : (Signal.ofBits v).isDefined = true := by
  simp [Signal.ofBits, Signal.isDefined]

theorem Signal.eq_ofBits_of_isDefined {w : Nat} {v : Signal w} (h : v.isDefined = true) :
    v = Signal.ofBits v.bits := by
  cases v
  simp_all [Signal.ofBits, Signal.isDefined]

end Sys2Proof

namespace Sys2Proof.Machine

variable {cfg : Config}

theorem Block.encOut_of_settled {b : Block cfg} (h : b.encSettled = true) : b.encOut = encodeSample b.encIn.bits := by
  simp [Block.encOut, h]

theorem Block.decOut_of_settled {b : Block cfg} (h : b.decSettled = true) :
    b.decOut = decodeCode cfg.wOut b.decIn.bits := by
  simp [Block.decOut, h]

theorem Block.encClamp_of_settled {b : Block cfg} (h : b.encSettled = true) :
    b.encClamp = if cfg.hasClampFlag then some (sampleClamped b.encIn.bits) else none := by
  simp [Block.encClamp, h]

/-- After ENC its outputs are settled and are the function of the operand alone (20_memory.md R35). -/
theorem Block.transactEnc_outputs (b : Block cfg) (x : BitVec cfg.wIn) :
    (b.transactEnc x).encSettled = true ∧ (b.transactEnc x).encOut = encodeSample x ∧
      (b.transactEnc x).encClamp = if cfg.hasClampFlag then some (sampleClamped x) else none := by
  have h : (b.transactEnc x).encSettled = true := by simp [Block.encSettled]
  exact ⟨h, Block.encOut_of_settled h, Block.encClamp_of_settled h⟩

/-- After DEC its output is settled and is the function of the operand alone (20_memory.md R35). -/
theorem Block.transactDec_outputs (b : Block cfg) (c : Code) :
    (b.transactDec c).decSettled = true ∧ (b.transactDec c).decOut = decodeCode cfg.wOut c := by
  have h : (b.transactDec c).decSettled = true := by simp [Block.decSettled]
  exact ⟨h, Block.decOut_of_settled h⟩

/-- A driven port is unsettled, and its outputs show free values (70_reset_and_hazards.md R94). -/
theorem Block.applyDrive_enc_unsettled (b : Block cfg) {d : Drive cfg.wIn} {v : Signal cfg.wIn} (h : d.enc = some v) :
    (b.applyDrive d).encSettled = false ∧ (b.applyDrive d).encOut = Config.unsettledEncOut (b.draw + 1) := by
  simp [Block.encSettled, Block.encOut, h]

/-- The same for `dec_in` and `dec_out`. -/
theorem Block.applyDrive_dec_unsettled (b : Block cfg) {d : Drive cfg.wIn} {c : Signal 8} (h : d.dec = some c) :
    (b.applyDrive d).decSettled = false ∧
      (b.applyDrive d).decOut = Config.unsettledDecOut cfg.wOut (b.draw + 1) := by
  simp [Block.decSettled, Block.decOut, h]

/-- A bare drive that goes on is a defined one, and changes the inputs it names. -/
theorem Block.acceptDrive_next {b : Block cfg} {t : State} {d : Drive cfg.wIn} (h : b.acceptDrive d = .next t) :
    driveDefined d.enc = true ∧ driveDefined d.dec = true ∧ t = ⟨cfg, b.applyDrive d⟩ := by
  unfold Block.acceptDrive at h
  split at h <;> [split at h; skip] <;> simp_all

end Sys2Proof.Machine
end

