-- ==== Sys2Proof/Laws/PerInstr.lean ====
section
/-! SUPPORT. A fact about every instruction as syntax, one lemma a constructor: what the host drives for it has no
undefined bit, so no instruction is refused (70_reset_and_hazards.md R97). -/

namespace Sys2Proof.Laws.EncodingDefined

/-- The encoding of `i` is defined on every bit, at every width of `enc_in`. -/
def Statement (i : Instr) : Prop := ∀ w, Machine.requestDefined (encode w i) = true

theorem enc (x : Int) : Statement (.enc x) := fun w => by
  simp [encode, Machine.requestDefined, Signal.isDefined, Signal.ofBits]

theorem dec (c : Code) : Statement (.dec c) := fun w => by
  simp [encode, Machine.requestDefined, Signal.isDefined, Signal.ofBits]

theorem rt (x : Int) : Statement (.rt x) := fun w => by
  simp [encode, Machine.requestDefined, Signal.isDefined, Signal.ofBits]

end Sys2Proof.Laws.EncodingDefined
end

