-- ==== Sys2Proof/Laws/Step.lean ====
section
/-! SUPPORT. What one step can do, said once. -/

namespace Sys2Proof.Machine

variable {cfg : Config} {b : Block cfg} {rest : List (HostEvent cfg.wIn)}

theorem step_of_no_event (h : b.pending = []) : step ⟨cfg, b⟩ = .next ⟨cfg, b.tick⟩ := by
  simp [step, h]

theorem step_of_wait (h : b.pending = .wait :: rest) : step ⟨cfg, b⟩ = .next ⟨cfg, b.popEvent.settle⟩ := by
  simp [step, h]

theorem step_of_drive {d : Drive cfg.wIn} (h : b.pending = .drive d :: rest) :
    step ⟨cfg, b⟩ = b.popEvent.acceptDrive d := by
  simp [step, h]

/-- A request that stands for an instruction has defined bits, and the port fixes which instruction it is. -/
theorem decode_ok_cases {w : Nat} {r : Request w} {i : Instr} (h : decode r = .ok i) :
    (∃ v, r = .onEncIn v ∧ v.isDefined = true ∧ i = .enc (sampleValue v.bits)) ∨
    (∃ v, r = .onDecIn v ∧ v.isDefined = true ∧ i = .dec v.bits) ∨
    (∃ v, r = .chained v ∧ v.isDefined = true ∧ i = .rt (sampleValue v.bits)) := by
  cases r with
  | onEncIn v => simp only [decode] at h; split at h <;> simp_all
  | onDecIn v => simp only [decode] at h; split at h <;> simp_all
  | chained v => simp only [decode] at h; split at h <;> simp_all

/-- A request that stands for no instruction has an undefined bit. -/
theorem decode_error_requestDefined {w : Nat} {r : Request w} {e : DecodeError} (h : decode r = .error e) :
    requestDefined r = false := by
  cases r with
  | onEncIn v => simp only [decode] at h; split at h <;> simp_all [requestDefined]
  | onDecIn v => simp only [decode] at h; split at h <;> simp_all [requestDefined]
  | chained v => simp only [decode] at h; split at h <;> simp_all [requestDefined]

/-- An action is defined exactly when it drives an undefined bit on neither port. -/
theorem eventDefined_iff_drivesUndefined {w : Nat} (e : HostEvent w) :
    eventDefined e = true ↔ ∀ p, drivesUndefined p e = false := by
  constructor
  · intro h p
    cases e with
    | transact r => cases r <;> simp_all [eventDefined, requestDefined, drivesUndefined]
    | drive d => simp_all [eventDefined, drivesUndefined]
    | wait => rfl
  · intro h
    have he := h .encIn
    have hd := h .decIn
    cases e with
    | transact r => cases r <;> simp_all [eventDefined, requestDefined, drivesUndefined]
    | drive d => simp_all [eventDefined, drivesUndefined]
    | wait => rfl

/-- Every instruction completes, in every state, in one of three ways. -/
theorem exec_cases (i : Instr) (b : Block cfg) :
    (∃ x, i = .enc x ∧ exec i ⟨cfg, b⟩ = .next ⟨cfg, b.transactEnc (samplePattern cfg.wIn x)⟩) ∨
    (∃ c, i = .dec c ∧ exec i ⟨cfg, b⟩ = .next ⟨cfg, b.transactDec c⟩) ∨
    (∃ x, i = .rt x ∧ exec i ⟨cfg, b⟩ = .next ⟨cfg, (b.transactEnc (samplePattern cfg.wIn x)).transactDec
      (b.transactEnc (samplePattern cfg.wIn x)).encOut⟩) := by
  cases i with
  | enc x => exact .inl ⟨x, rfl, rfl⟩
  | dec c => exact .inr (.inl ⟨c, rfl, rfl⟩)
  | rt x => exact .inr (.inr ⟨x, rfl, rfl⟩)

/-- If a step answers a next state, the host had nothing to do, or ran an instruction, or drove defined values,
or waited. -/
theorem step_next_cases {t : State} (h : step ⟨cfg, b⟩ = .next t) :
    (b.pending = [] ∧ t = ⟨cfg, b.tick⟩) ∨
    (∃ r rest i, b.pending = .transact r :: rest ∧ decode r = .ok i ∧ exec i ⟨cfg, b.popEvent⟩ = .next t) ∨
    (∃ d rest, b.pending = .drive d :: rest ∧ driveDefined d.enc = true ∧ driveDefined d.dec = true ∧
      t = ⟨cfg, b.popEvent.applyDrive d⟩) ∨
    (∃ rest, b.pending = .wait :: rest ∧ t = ⟨cfg, b.popEvent.settle⟩) := by
  unfold step at h
  split at h
  · exact .inl ⟨‹_›, by simpa using h.symm⟩
  · split at h
    · exact .inr (.inl ⟨_, _, _, ‹_›, ‹_›, h⟩)
    · cases h
  · obtain ⟨h1, h2, h3⟩ := Block.acceptDrive_next h
    exact .inr (.inr (.inl ⟨_, _, ‹_›, h1, h2, h3⟩))
  · exact .inr (.inr (.inr ⟨_, ‹_›, by simpa using h.symm⟩))

/-- Running one step more is stepping first. -/
theorem core_run_succ {s s' : State} (k : Nat) (h : step s = .next s') :
    Sys2Proof.core.run (k + 1) s = Sys2Proof.core.run k s' := by
  have h' : Sys2Proof.core.step s = .next s' := h
  simp only [Host.Core.run]
  rw [h']

end Sys2Proof.Machine
end

