-- ==== Sys2Proof/Tests/Slice0.lean ====
section
/-! SUPPORT. The model's own tests. Expected values are the spec's: 95_test_vectors.md, the examples of the rules, or
hand arithmetic from the rules; none comes from running the model. The witnesses at the end show that the hypotheses of
each statement of Obligations.lean can be met together, at boundary values. -/

namespace Sys2Proof.Tests

open Sys2Proof.Machine

/-- The narrowest block, with the clamp indicator. -/
def cfg13 : Config := ⟨13, 13, true, by decide, by decide⟩

/-- The default block with the clamp indicator. -/
def cfg16 : Config := ⟨16, 16, true, by decide, by decide⟩

/-- A block at power-up with a script. -/
def scripted (cfg : Config) (es : List (HostEvent cfg.wIn)) : Block cfg := { Block.powerUp cfg with pending := es }

/-- What the outputs show after an outcome, as (enc_out, enc_clamp, dec_out); none if the machine stopped. -/
def outputs : Host.Outcome State Fault Refusal → Option (Nat × Option Bool × Nat)
  | .next t => some (t.block.encOut.toNat, t.block.encClamp, t.block.decOut.toNat)
  | _ => none

/-- `enc_out` after an outcome. -/
def codeOut : Host.Outcome State Fault Refusal → Option Nat
  | .next t => some t.block.encOut.toNat
  | _ => none

/-- `dec_out` after an outcome, as a signed value. -/
def sampleOut : Host.Outcome State Fault Refusal → Option Int
  | .next t => some t.block.decOut.toInt
  | _ => none

/-! ## WellFormed -/

theorem test_wellFormed_refuses_enc_too_large : (Instr.enc 32768).wellFormed Config.default = false := by decide
theorem test_wellFormed_refuses_enc_too_small : (Instr.enc (-32769)).wellFormed Config.default = false := by decide
theorem test_wellFormed_refuses_rt_too_large : (Instr.rt 4096).wellFormed cfg13 = false := by decide
theorem test_wellFormed_refuses_rt_too_small : (Instr.rt (-4097)).wellFormed cfg13 = false := by decide
theorem test_wellFormed_takes_the_ends :
    (Instr.enc 32767).wellFormed Config.default = true ∧ (Instr.rt (-4096)).wellFormed cfg13 = true ∧
      (Instr.dec 0xFF#8).wellFormed cfg13 = true := by decide

/-! ## Decode: words written out from 30_encoding.md R39, R42 and R45 -/

theorem test_decode_enc : (decode (.onEncIn (.ofBits 0b1111111110100110#16))).toOption = some (.enc (-90)) := by decide
theorem test_decode_dec : (decode (.onDecIn (.ofBits 0b11110011#8) : Request 16)).toOption = some (.dec 0xF3#8) := by
  decide
theorem test_decode_rt : (decode (.chained (.ofBits 0b0000000000101000#16))).toOption = some (.rt 40) := by decide
theorem test_decode_rejects_undefined_bit :
    decode (.onEncIn ⟨0#16, 0b1000000000000000#16⟩) = .error (.undefinedBits .encIn) := rfl
theorem test_table_words :
    decodeTableWord 16 0xFFA6 = some (.enc (-90)) ∧ decodeTableWord 8 0xF3 = some (.dec 0xF3#8) ∧
      decodeTableWord 24 0 = none := by decide

/-! ## One step of each instruction -/

/-- The first step after power-up with 0xFFA6 on `enc_in` (40_encoder.md R47, example). -/
theorem test_first_step_runs_enc : codeOut (step (State.reset.withFetchWord 16 0xFFA6)) = some 0xF3 := by decide

/-- The first step after power-up with 0xF3 on `dec_in` (41_decoder.md R60, example). -/
theorem test_first_step_runs_dec : sampleOut (step (State.reset.withFetchWord 8 0xF3)) = some (-90) := by decide

/-- RT as the host's first action (42_roundtrip.md R70, example). -/
theorem test_first_step_runs_rt :
    sampleOut (step ⟨cfg13, scripted cfg13 [.transact (encode 13 (.rt 40))]⟩) = some 41 := by decide

/-- Golden codes of 95_test_vectors.md 2.1, one or two a segment and both signs. -/
theorem test_enc_golden :
    [(-2460, 0xA6), (-1505, 0xB2), (-650, 0x81), (-338, 0x90), (-1, 0xD5), (0, 0x55), (31, 0x5A), (32, 0x45),
     (169, 0x60), (2047, 0x3A), (2048, 0x25), (32767, 0x2A), (-32768, 0xAA)].all
      (fun v => codeOut (exec (.enc v.1) State.reset) == some v.2) = true := by decide

/-- 95_test_vectors.md 2.5 and 2.6: the clamp indicator at the boundary and the narrowest width. -/
theorem test_enc_clamp_indicator :
    [(4095, 0x2A, false), (-4095, 0xAA, false), (-4096, 0xAA, true), (0, 0x55, false)].all
      (fun v => match exec (.enc v.1) ⟨cfg13, Block.powerUp cfg13⟩ with
        | .next t => t.block.encOut.toNat == v.2.1 && t.block.encClamp == some v.2.2
        | _ => false) = true := by decide

/-- Golden values of 95_test_vectors.md 2.2. -/
theorem test_dec_golden :
    [(0x00, 688), (0x0B, 976), (0x2A, 4032), (0x41, 41), (0x55, 1), (0x7F, 106), (0xA6, -2496), (0xAA, -4032),
     (0xB2, -1504), (0xD5, -1), (0xFF, -106)].all
      (fun v => sampleOut (exec (.dec (BitVec.ofNat 8 v.1)) State.reset) == some v.2) = true := by decide

/-- 95_test_vectors.md 2.6: patterns of `dec_out` at the narrowest width. -/
theorem test_dec_narrow_patterns :
    [(0xAA, 0x1040), (0x2A, 0x0FC0), (0xD5, 0x1FFF), (0xF3, 0x1FA6)].all
      (fun v => match exec (.dec (BitVec.ofNat 8 v.1)) ⟨cfg13, Block.powerUp cfg13⟩ with
        | .next t => t.block.decOut.toNat == v.2
        | _ => false) = true := by decide

/-- 95_test_vectors.md 2.4. -/
theorem test_rt_golden :
    [(-2460, -2496), (-90, -90), (0, 1), (33, 33), (64, 66), (169, 172), (1024, 1056), (5000, 4032), (-9000, -4032)].all
      (fun v => sampleOut (exec (.rt v.1) State.reset) == some v.2) = true := by decide

/-- 95_test_vectors.md P5, first and last transaction: DEC after ENC leaves `enc_out` where ENC put it. -/
theorem test_dec_keeps_enc_out :
    (match exec (.enc 40) State.reset with
      | .next t => outputs (exec (.dec 0xF3#8) t)
      | _ => none) = some (0x41, none, 0xFFA6) := by decide

/-! ## Segment forms: the boundaries of 40_encoder.md R51 and R52, the table of 41_decoder.md R65 -/

theorem test_segment_boundaries :
    [(31, 0), (32, 1), (63, 1), (64, 2), (255, 3), (256, 4), (1023, 5), (1024, 6), (2047, 6), (2048, 7), (4095, 7)].all
      (fun v => let m := BitVec.ofNat 12 v.1
        (segSel m).toNat == v.2 && (segByTable m).val == v.2 && (segBySearch m).toNat == v.2) = true := by decide

/-! ## A step that stops, and steps that are no transaction -/

/-- 70_reset_and_hazards.md R97: one undefined bit on `dec_in`. -/
theorem test_step_refuses_undefined_bit :
    step ⟨cfg13, scripted cfg13 [.transact (.onDecIn ⟨0xF3#8, 0x01#8⟩)]⟩ = .refused (.undefinedInput .decIn) := rfl

/-- The same for a bare drive of `enc_in`. -/
theorem test_drive_refuses_undefined_bit :
    step ⟨cfg13, scripted cfg13 [.drive ⟨some ⟨0#13, 1#13⟩, none⟩]⟩ = .refused (.undefinedInput .encIn) := rfl

/-- Both inputs driven, then T_SETTLE: `ENC 40` and `DEC 0xF3` at once (95_test_vectors.md P5). -/
theorem test_drive_then_wait :
    outputs (Sys2Proof.core.run 2 ⟨cfg16, scripted cfg16
      [.drive ⟨some (.ofBits 40#16), some (.ofBits 0xF3#8)⟩, .wait]⟩) = some (0x41, some false, 0xFFA6) := by decide

/-! ## Witnesses of the statements' hypotheses -/

theorem test_witness_ClampIsMinimum :
    13 ≤ 13 ∧ clamped (4095#13) = false ∧ clamped (4096#13) = true ∧ sampleClamped (0x1000#13) = true := by decide

theorem test_witness_SegmentIsHighestSetBit :
    (5 ≤ 11 ∧ 2 ^ 5 ≤ (32#12).toNat ∧ (32#12).toNat < 2 ^ 6 ∧ 2 ^ 11 ≤ (4095#12).toNat ∧ (4095#12).toNat < 2 ^ 12) ∧
      (32#12).toNat / 32 = (63#12).toNat / 32 := by decide

theorem test_witness_MantissaIsOffsetInSegment : segSel 31#12 = 0 ∧ segSel 32#12 ≠ 0 := by decide

theorem test_witness_ClampIndicatorShowsClampAndNothingElse : cfg13.hasClampFlag = true := rfl

theorem test_witness_DecoderSumNeverCarries : (0 : Fin 8).val + 1 = (1#3).toNat ∧ (6 : Fin 8).val + 1 = (7#3).toNat := by
  decide

theorem test_witness_SignApplicationIsExact : 13 ≤ 13 ∧ (4032#12).toNat ≤ 4032 := by decide

theorem test_witness_DecRangeAndSpacing :
    (rawSeg (maskCode 0x45#8)).toNat = 1 ∧ (rawSeg (maskCode 0x75#8)).toNat = 2 ∧ 12 ≤ 12 ∧ 12 < cfg13.wOut := by decide

theorem test_witness_ClampBoundaryCodes :
    sampleInRange cfg13.wIn 4095 = true ∧ sampleInRange cfg13.wIn (-4095) = true ∧
      sampleInRange cfg13.wIn (-4096) = true := by decide

theorem test_witness_SignSymmetryAboveZero :
    ((1 : Int) ≤ 1 ∧ (1 : Int) ≤ 2 ^ (cfg13.wIn - 1) - 1) ∧ ((4095 : Int) ≤ 2 ^ (cfg13.wIn - 1) - 1) := by decide

theorem test_witness_RoundTripErrorAtMostHalfStep :
    [0, 4095, -1, -4095, 4096, -4096].all (sampleInRange cfg16.wIn) = true := by decide

theorem test_witness_RoundTripIsMonotone :
    sampleInRange cfg13.wIn 0 = true ∧ sampleInRange cfg13.wIn (-1) = true ∧ (-1 : Int) < 0 := by decide

theorem test_witness_EncPreimageOfEachCode :
    ((-4095 : Int) ≤ -4095 ∧ (4095 : Int) ≤ 4095) ∧ sampleInRange cfg13.wIn (-1) = true ∧
      sampleInRange cfg13.wIn 3968 = true ∧ sampleInRange cfg13.wIn (-3968) = true := by decide

theorem test_witness_RoundTripFixedPoints :
    sampleInRange cfg13.wIn 0 = true ∧ sampleInRange cfg13.wIn (-4032) = true := by decide

theorem test_witness_EncLeavesDecSideUnchanged :
    ((Block.powerUp cfg13).transactDec 0xF3#8).decSettled = true := by decide

theorem test_witness_DecLeavesEncSideUnchanged :
    ((Block.powerUp cfg13).transactEnc 0x1FA6#13).encSettled = true := by decide

theorem test_witness_OutputsDependOnOperandAlone :
    let es : List (HostEvent cfg13.wIn) := [.transact (.onDecIn (.ofBits 0xF3#8)), .drive ⟨none, some (.ofBits 1#8)⟩, .wait]
    (scripted cfg13 (.transact (encode cfg13.wIn (.enc 40)) :: es)).pending =
        .transact (encode cfg13.wIn (.enc 40)) :: es ∧
      es.all eventDefined = true ∧ es.all sparesEncIn = true := by decide

theorem test_witness_OutputsDependOnOperandAlone_dec :
    let es : List (HostEvent cfg13.wIn) := [.transact (.onEncIn (.ofBits 40#13)), .drive ⟨some (.ofBits 1#13), none⟩]
    (scripted cfg13 (.transact (encode cfg13.wIn (.dec 0xF3#8)) :: es)).pending =
        .transact (encode cfg13.wIn (.dec 0xF3#8)) :: es ∧
      es.all eventDefined = true ∧ es.all sparesDecIn = true := by decide

theorem test_witness_LastTransactionOfEachPortDecides :
    let is : List Instr := [.enc (-90), .dec 0x41#8, .enc 40]
    (scripted cfg13 (is.map fun i => .transact (encode cfg13.wIn i))).pending =
        is.map (fun i => HostEvent.transact (encode cfg13.wIn i)) ++ [] ∧
      (is.filterMap sampleDriven).getLast? = some 40 ∧
      (is.filterMap (codeDriven cfg13.wIn)).getLast? = some 0x41#8 := by decide

theorem test_witness_SimultaneousChangesAreTwoTransactions :
    (scripted cfg13 [.drive ⟨some (.ofBits (samplePattern cfg13.wIn 40)), some (.ofBits 0xF3#8)⟩, .wait]).pending =
      .drive ⟨some (.ofBits (samplePattern cfg13.wIn 40)), some (.ofBits 0xF3#8)⟩ :: .wait :: [] := rfl

theorem test_witness_StepRunsTheDecodedInstruction :
    (scripted cfg13 [.transact (.onDecIn (.ofBits 0xF3#8))]).pending = .transact (.onDecIn (.ofBits 0xF3#8)) :: [] ∧
      decode (.onDecIn (.ofBits 0xF3#8) : Request 13) = .ok (.dec 0xF3#8) := ⟨rfl, rfl⟩

theorem test_witness_StepRefusesExactlyUndefinedInputs :
    eventDefined (.drive ⟨none, some ⟨0#8, 0x80#8⟩⟩ : HostEvent 13) = false ∧
      step ⟨cfg13, scripted cfg13 [.drive ⟨none, some ⟨0#8, 0x80#8⟩⟩]⟩ = .refused (.undefinedInput .decIn) ∧
      eventDefined (.wait : HostEvent 13) = true := ⟨rfl, rfl, rfl⟩

/-- Both ports undefined: the refusal names `enc_in` (log entry 8). -/
theorem test_witness_StepRefusesExactlyUndefinedInputs_both :
    let e : HostEvent cfg13.wIn := .drive ⟨some ⟨0#13, 1#13⟩, some ⟨0#8, 0x80#8⟩⟩
    drivesUndefined .encIn e = true ∧ drivesUndefined .decIn e = true ∧
      step ⟨cfg13, scripted cfg13 [e]⟩ = .refused (.undefinedInput .encIn) := ⟨rfl, rfl, rfl⟩

theorem test_witness_DefinedHostIsNeverStopped :
    (scripted cfg13 [.transact (encode 13 (.rt 40)), .drive ⟨some (.ofBits 1#13), none⟩, .wait]).hostDriven = true := by
  decide

theorem test_witness_StepKeepsPortsWhole :
    (scripted cfg13 [.wait]).portsWhole = true ∧
      step ⟨cfg13, scripted cfg13 [.wait]⟩ = .next ⟨cfg13, (scripted cfg13 [.wait]).popEvent.settle⟩ := ⟨rfl, rfl⟩

theorem test_witness_OutputsChangeOnlyWithTheirInput :
    let b : Block cfg13 :=
      { (Block.powerUp cfg13).transactEnc 0x1FA6#13 with pending := [.transact (.onDecIn (.ofBits 0xF3#8))] }
    b.encSettled = true ∧ step ⟨cfg13, b⟩ = .next ⟨cfg13, b.popEvent.transactDec 0xF3#8⟩ := ⟨rfl, rfl⟩

theorem test_witness_OutputsChangeOnlyWithTheirInput_dec :
    let b : Block cfg13 := { (Block.powerUp cfg13).transactDec 0xF3#8 with pending := [.drive ⟨some (.ofBits 1#13), none⟩] }
    b.decSettled = true ∧ step ⟨cfg13, b⟩ = .next ⟨cfg13, b.popEvent.applyDrive ⟨some (.ofBits 1#13), none⟩⟩ :=
  ⟨rfl, rfl⟩

theorem test_witness_OutputsAreFreeUntilSettled :
    let both : Drive cfg13.wIn := ⟨some (.ofBits 1#13), some (.ofBits 2#8)⟩
    let encAlone : Drive cfg13.wIn := ⟨some (.ofBits 1#13), none⟩
    let decAlone : Drive cfg13.wIn := ⟨none, some (.ofBits 2#8)⟩
    (∀ d ∈ [both, encAlone, decAlone],
      (scripted cfg13 [.drive d]).pending = .drive d :: [] ∧ eventDefined (HostEvent.drive d) = true) ∧
    ({ scripted cfg13 [.wait] with encIn := .ofBits 1#13, decIn := .ofBits 2#8 } : Block cfg13).pending =
      .wait :: [] := by decide

theorem test_witness_DecodeOfEncodeIsIdentity :
    (Instr.enc (-4096)).wellFormed cfg13 = true ∧ (Instr.dec 0#8).wellFormed cfg13 = true ∧
      (Instr.rt 4095).wellFormed cfg13 = true := by decide

theorem test_witness_EveryDefinedPatternIsLegal :
    requestDefined (.onEncIn (.ofBits 0x1000#13)) = true ∧ requestDefined (.onDecIn (.ofBits 0xFF#8) : Request 13) = true ∧
      requestDefined (.chained (.ofBits 0x0FFF#13)) = true := by decide

end Sys2Proof.Tests
end

/-! # Power-up: the scope's parameters, and outputs nobody has driven (00_scope.md R6 to R8; 70_reset_and_hazards.md
R91, R92) -/

namespace Sys2Proof.Machine

section Unsettled

variable {cfg : Config} {b : Block cfg}

theorem Block.encOut_of_not_settled (h : b.encSettled = false) : b.encOut = Config.unsettledEncOut b.draw := by
  simp [Block.encOut, h]

theorem Block.decOut_of_not_settled (h : b.decSettled = false) :
    b.decOut = Config.unsettledDecOut cfg.wOut b.draw := by
  simp [Block.decOut, h]

theorem Block.encClamp_of_no_flag (h : cfg.hasClampFlag = false) : b.encClamp = none := by
  simp [Block.encClamp, h]

end Unsettled

/-- Neither input has been stable for T_SETTLE at power-up, so at every choice of parameters nothing is settled. -/
theorem Block.powerUp_not_settled (cfg : Config) :
    (Block.powerUp cfg).encSettled = false ∧ (Block.powerUp cfg).decSettled = false := by
  simp [Block.powerUp, Block.encSettled, Block.decSettled]

/-- Settles O36: an output that is not settled at power-up shows a free value, and the default parameters have no clamp
port. -/
theorem powerUpOutputsUnsettled : Obligations.PowerUpOutputsUnsettled := by
  unfold Obligations.PowerUpOutputsUnsettled
  obtain ⟨henc, hdec⟩ := Block.powerUp_not_settled Config.default
  exact ⟨rfl, rfl, rfl, henc, hdec, ⟨_, Block.encOut_of_not_settled henc⟩, ⟨_, Block.decOut_of_not_settled hdec⟩,
    Block.encClamp_of_no_flag rfl⟩

end Sys2Proof.Machine

/-! # State: frames, independence of the two datapaths, and the clamp indicator (10_state.md R18, R20, R23, R27;
20_memory.md R35) -/

namespace Sys2Proof.Machine

/-! ## One input with its stability

The outputs of a datapath are a function of its input and of whether that input is stable, so a frame or an independence
fact about one datapath is a fact about this pair. -/

/-- An input port together with whether it has been stable for T_SETTLE. -/
structure InputSide (w : Nat) where
  input : Signal w
  stable : Bool

namespace InputSide

variable {w : Nat} {s t u : InputSide w} {o o' : Option (BitVec w)}

/-- `t` is the input `s` after the transactions whose last value on this port is `o`: with `some v` the port holds `v`,
stable; with `none` it was not driven and, if it was stable, still is. -/
def After (o : Option (BitVec w)) (s t : InputSide w) : Prop :=
  match o with
  | some v => t.input = .ofBits v ∧ t.stable = true
  | none => t.input = s.input ∧ (s.stable = true → t.stable = true)

theorem After.refl (s : InputSide w) : After none s s := ⟨rfl, id⟩

/-- The later of two driven values stands on the port. -/
theorem After.trans (h : After o s t) (h' : After o' t u) : After (o'.or o) s u := by
  cases o' with
  | some v => exact h'
  | none =>
    obtain ⟨hin, hst⟩ := h'
    cases o with
    | some v => exact ⟨hin.trans h.1, hst h.2⟩
    | none => exact ⟨hin.trans h.1, hst ∘ h.2⟩

end InputSide

section Sides

variable {cfg : Config} {b b' : Block cfg}

/-- The encoder's input of a block. -/
def Block.encSide (b : Block cfg) : InputSide cfg.wIn := ⟨b.encIn, b.encStable⟩

/-- The decoder's input of a block. -/
def Block.decSide (b : Block cfg) : InputSide 8 := ⟨b.decIn, b.decStable⟩

theorem Block.encOutputs_of_after_some {x : BitVec cfg.wIn} (h : b.encSide.After (some x) b'.encSide) :
    b'.encSettled = true ∧ b'.encOut = encodeSample x ∧
      b'.encClamp = if cfg.hasClampFlag then some (sampleClamped x) else none := by
  obtain ⟨hin : b'.encIn = .ofBits x, hst : b'.encStable = true⟩ := h
  have hset : b'.encSettled = true := by simp [Block.encSettled, hin, hst]
  exact ⟨hset, by simp [Block.encOut_of_settled hset, hin], by simp [Block.encClamp_of_settled hset, hin]⟩

theorem Block.decOutput_of_after_some {c : Code} (h : b.decSide.After (some c) b'.decSide) :
    b'.decSettled = true ∧ b'.decOut = decodeCode cfg.wOut c := by
  obtain ⟨hin : b'.decIn = .ofBits c, hst : b'.decStable = true⟩ := h
  have hset : b'.decSettled = true := by simp [Block.decSettled, hin, hst]
  exact ⟨hset, by simp [Block.decOut_of_settled hset, hin]⟩

theorem Block.encOutputs_of_after_none (h : b.encSide.After none b'.encSide) (hb : b.encSettled = true) :
    b'.encSettled = true ∧ b'.encOut = b.encOut ∧ b'.encClamp = b.encClamp := by
  obtain ⟨hin : b'.encIn = b.encIn, hst : b.encStable = true → b'.encStable = true⟩ := h
  have hset : b'.encSettled = true := by simp_all [Block.encSettled]
  exact ⟨hset, by simp [Block.encOut_of_settled, hset, hb, hin], by simp [Block.encClamp_of_settled, hset, hb, hin]⟩

theorem Block.decOutput_of_after_none (h : b.decSide.After none b'.decSide) (hb : b.decSettled = true) :
    b'.decSettled = true ∧ b'.decOut = b.decOut := by
  obtain ⟨hin : b'.decIn = b.decIn, hst : b.decStable = true → b'.decStable = true⟩ := h
  have hset : b'.decSettled = true := by simp_all [Block.decSettled]
  exact ⟨hset, by simp [Block.decOut_of_settled, hset, hb, hin]⟩

end Sides

/-! ## What an instruction does to the two inputs -/

section Instructions

variable {cfg : Config}

/-- Every instruction completes, keeps the script, and leaves on each input the value it drives there, or what stood
there. -/
theorem exec_sides (i : Instr) (b : Block cfg) :
    ∃ b' : Block cfg, exec i ⟨cfg, b⟩ = .next ⟨cfg, b'⟩ ∧ b'.pending = b.pending ∧
      b.encSide.After ((sampleDriven i).map (samplePattern cfg.wIn)) b'.encSide ∧
      b.decSide.After (codeDriven cfg.wIn i) b'.decSide := by
  cases i with
  | enc x => exact ⟨_, rfl, rfl, ⟨rfl, rfl⟩, rfl, fun _ => rfl⟩
  | dec c => exact ⟨_, rfl, rfl, ⟨rfl, fun _ => rfl⟩, rfl, rfl⟩
  | rt x =>
    obtain ⟨-, hout, -⟩ := b.transactEnc_outputs (samplePattern cfg.wIn x)
    exact ⟨_, rfl, rfl, ⟨rfl, rfl⟩, congrArg Signal.ofBits hout, rfl⟩

end Instructions

/-- Settles O23: ENC drives no code. -/
theorem encLeavesDecSideUnchanged : Obligations.EncLeavesDecSideUnchanged := by
  unfold Obligations.EncLeavesDecSideUnchanged
  intro cfg b x
  obtain ⟨b', hexec, hpend, -, hdec⟩ := exec_sides (.enc x) b
  exact ⟨b', hexec, hpend, hdec.1, Block.decOutput_of_after_none hdec⟩

/-- Settles O24: DEC drives no sample. -/
theorem decLeavesEncSideUnchanged : Obligations.DecLeavesEncSideUnchanged := by
  unfold Obligations.DecLeavesEncSideUnchanged
  intro cfg b c
  obtain ⟨b', hexec, hpend, henc, -⟩ := exec_sides (.dec c) b
  exact ⟨b', hexec, hpend, henc.1, Block.encOutputs_of_after_none henc⟩

/-- Settles O25: RT drives its sample and the sample's code. -/
theorem rtWritesBothPortsOnly : Obligations.RtWritesBothPortsOnly := by
  unfold Obligations.RtWritesBothPortsOnly
  intro cfg b x
  obtain ⟨b', hexec, hpend, henc, hdec⟩ := exec_sides (.rt x) b
  obtain ⟨-, -, hclamp⟩ := Block.encOutputs_of_after_some henc
  exact ⟨b', hexec, hpend, henc.1, hdec.1, hclamp⟩

/-! ## What a step does to the two inputs -/

section Steps

variable {cfg : Config} {b : Block cfg} {rest : List (HostEvent cfg.wIn)} {i : Instr}

theorem Block.popEvent_eq_of_pending {e : HostEvent cfg.wIn} (h : b.pending = e :: rest) :
    b.popEvent = { b with pending := rest } := by
  simp [Block.popEvent, h]

theorem step_of_decoded {r : Request cfg.wIn} (h : b.pending = .transact r :: rest) (hdec : decode r = .ok i) :
    step ⟨cfg, b⟩ = exec i ⟨cfg, b.popEvent⟩ := by
  simp [step, h, hdec]

theorem sparesEncIn_iff {w : Nat} {e : HostEvent w} :
    sparesEncIn e = true ↔
      (∃ v, e = .transact (.onDecIn v)) ∨ (∃ v, e = .drive ⟨none, v⟩) ∨ e = .wait := by
  cases e with
  | transact r => cases r <;> simp [sparesEncIn]
  | drive d => cases d; simp [sparesEncIn]
  | wait => simp [sparesEncIn]

theorem sparesDecIn_iff {w : Nat} {e : HostEvent w} :
    sparesDecIn e = true ↔
      (∃ v, e = .transact (.onEncIn v)) ∨ (∃ v, e = .drive ⟨v, none⟩) ∨ e = .wait := by
  cases e with
  | transact r => cases r <;> simp [sparesDecIn]
  | drive d => cases d; simp [sparesDecIn]
  | wait => simp [sparesDecIn]

theorem sampleDriven_eq_none_of_spares {w : Nat} {r : Request w} (hdec : decode r = .ok i)
    (hs : sparesEncIn (.transact r) = true) : sampleDriven i = none := by
  obtain ⟨v, rfl, -, rfl⟩ | ⟨v, rfl, -, rfl⟩ | ⟨v, rfl, -, rfl⟩ := decode_ok_cases hdec
  · cases hs
  · rfl
  · cases hs

theorem codeDriven_eq_none_of_spares {w : Nat} {r : Request w} (hdec : decode r = .ok i)
    (hs : sparesDecIn (.transact r) = true) : codeDriven w i = none := by
  obtain ⟨v, rfl, -, rfl⟩ | ⟨v, rfl, -, rfl⟩ | ⟨v, rfl, -, rfl⟩ := decode_ok_cases hdec
  · rfl
  · cases hs
  · cases hs

/-- A step keeps the parameters, takes one action off the script, and keeps each input that this action spares. -/
theorem step_next_sides {t : State} (h : step ⟨cfg, b⟩ = .next t) :
    ∃ b' : Block cfg, t = ⟨cfg, b'⟩ ∧ b'.pending = b.pending.tail ∧
      ((∀ e rest, b.pending = e :: rest → sparesEncIn e = true) → b.encSide.After none b'.encSide) ∧
      ((∀ e rest, b.pending = e :: rest → sparesDecIn e = true) → b.decSide.After none b'.decSide) := by
  obtain ⟨hp, rfl⟩ | ⟨r, rest, i, hp, hdec, hexec⟩ | ⟨d, rest, hp, -, -, rfl⟩ | ⟨rest, -, rfl⟩ := step_next_cases h
  · exact ⟨_, rfl, by simp [hp], fun _ => .refl _, fun _ => .refl _⟩
  · obtain ⟨b', hb', hpend, hE, hD⟩ := exec_sides i b.popEvent
    obtain rfl : ⟨cfg, b'⟩ = t := by simpa [hb'] using hexec
    refine ⟨b', rfl, hpend, fun hs => ?_, fun hs => ?_⟩
    · rwa [sampleDriven_eq_none_of_spares hdec (hs _ _ hp)] at hE
    · rwa [codeDriven_eq_none_of_spares hdec (hs _ _ hp)] at hD
  · refine ⟨_, rfl, rfl, fun hs => ?_, fun hs => ?_⟩
    · have hd : d.enc = none := by simpa [sparesEncIn] using hs _ _ hp
      simp [InputSide.After, Block.encSide, hd]
    · have hd : d.dec = none := by simpa [sparesDecIn] using hs _ _ hp
      simp [InputSide.After, Block.decSide, hd]
  · exact ⟨_, rfl, rfl, fun _ => ⟨rfl, fun _ => rfl⟩, fun _ => ⟨rfl, fun _ => rfl⟩⟩

/-- A step whose action drives only 0s and 1s is not refused. -/
theorem step_of_eventDefined {e : HostEvent cfg.wIn} (h : b.pending = e :: rest) (he : eventDefined e = true) :
    ∃ t, step ⟨cfg, b⟩ = .next t := by
  cases e with
  | transact r =>
    cases hdec : decode r with
    | ok i =>
      obtain ⟨b', hb', -⟩ := exec_sides i b.popEvent
      exact ⟨_, (step_of_decoded h hdec).trans hb'⟩
    | error err => exact absurd he (by simp [eventDefined, decode_error_requestDefined hdec])
  | drive d =>
    obtain ⟨henc, hdec⟩ : driveDefined d.enc = true ∧ driveDefined d.dec = true := by simpa [eventDefined] using he
    exact ⟨_, by rw [step_of_drive h, Block.acceptDrive, if_pos henc, if_pos hdec]⟩
  | wait => exact ⟨_, step_of_wait h⟩

theorem samplePattern_sampleValue {w : Nat} (v : BitVec w) : samplePattern w (sampleValue v) = v :=
  BitVec.ofInt_toInt

/-- The encoding of an instruction, out of range or not, runs that instruction: it fixes the pattern driven. -/
theorem step_of_encode (h : b.pending = .transact (encode cfg.wIn i) :: rest) :
    step ⟨cfg, b⟩ = exec i ⟨cfg, b.popEvent⟩ := by
  cases i with
  | enc x =>
    rw [step_of_decoded (i := .enc (sampleValue (samplePattern cfg.wIn x))) h (by simp [encode, decode])]
    simp [exec, execEnc, samplePattern_sampleValue]
  | dec c => exact step_of_decoded h (by simp [encode, decode])
  | rt x =>
    rw [step_of_decoded (i := .rt (sampleValue (samplePattern cfg.wIn x))) h (by simp [encode, decode])]
    simp [exec, execRt, samplePattern_sampleValue]

/-- `exec_sides` for the instruction at the head of the script. -/
theorem step_of_encode_sides (h : b.pending = .transact (encode cfg.wIn i) :: rest) :
    ∃ b' : Block cfg, step ⟨cfg, b⟩ = .next ⟨cfg, b'⟩ ∧ b'.pending = rest ∧
      b.encSide.After ((sampleDriven i).map (samplePattern cfg.wIn)) b'.encSide ∧
      b.decSide.After (codeDriven cfg.wIn i) b'.decSide := by
  obtain ⟨b', hexec, hpend, hsides⟩ := exec_sides i b.popEvent
  exact ⟨b', (step_of_encode h).trans hexec, by simp [hpend, h], hsides⟩

end Steps

/-- Settles O29: popping the script's head leaves its tail. -/
theorem stepRunsTheDecodedInstruction : Obligations.StepRunsTheDecodedInstruction := by
  unfold Obligations.StepRunsTheDecodedInstruction
  intro cfg b r rest i h hdec
  rw [step_of_decoded h hdec, Block.popEvent_eq_of_pending h]

/-- Settles O34: an action of one of the listed kinds spares the port. -/
theorem outputsChangeOnlyWithTheirInput : Obligations.OutputsChangeOnlyWithTheirInput := by
  unfold Obligations.OutputsChangeOnlyWithTheirInput
  intro cfg b t h
  obtain ⟨b', rfl, hpend, hE, hD⟩ := step_next_sides h
  refine ⟨b', rfl, hpend, fun hs => ?_, fun hs => ?_⟩
  · have hkept := hE fun e rest hp => sparesEncIn_iff.2 (hs e rest hp)
    exact ⟨hkept.1, Block.encOutputs_of_after_none hkept⟩
  · have hkept := hD fun e rest hp => sparesDecIn_iff.2 (hs e rest hp)
    exact ⟨hkept.1, Block.decOutput_of_after_none hkept⟩

/-! ## What a script does to the two inputs -/

section Scripts

variable {cfg : Config} {b : Block cfg}

theorem RunsTo.cons {s s' t : State} {k : Nat} (hstep : step s = .next s') (hrun : RunsTo k s' t) :
    RunsTo (k + 1) s t :=
  (core_run_succ k hstep).trans hrun

/-- A script of defined actions runs to its end, and an input that all of them spare is kept. -/
theorem exists_runsTo_of_defined {es : List (HostEvent cfg.wIn)} (hp : b.pending = es)
    (hdef : es.all eventDefined = true) :
    ∃ b' : Block cfg, RunsTo es.length ⟨cfg, b⟩ ⟨cfg, b'⟩ ∧
      (es.all sparesEncIn = true → b.encSide.After none b'.encSide) ∧
      (es.all sparesDecIn = true → b.decSide.After none b'.decSide) := by
  induction es generalizing b with
  | nil => exact ⟨b, rfl, fun _ => .refl _, fun _ => .refl _⟩
  | cons e es ih =>
    obtain ⟨he, hes⟩ := Bool.and_eq_true_iff.1 hdef
    obtain ⟨_, hstep⟩ := step_of_eventDefined hp he
    obtain ⟨b₁, rfl, hp₁, hE₁, hD₁⟩ := step_next_sides hstep
    obtain ⟨b', hrun, hE, hD⟩ := ih (b := b₁) (by simp [hp₁, hp]) hes
    refine ⟨b', hrun.cons hstep, fun hs => ?_, fun hs => ?_⟩
    · obtain ⟨hse, hses⟩ := Bool.and_eq_true_iff.1 hs
      exact (hE₁ (by simp [hp, hse])).trans (hE hses)
    · obtain ⟨hse, hses⟩ := Bool.and_eq_true_iff.1 hs
      exact (hD₁ (by simp [hp, hse])).trans (hD hses)

/-- A transaction and then defined actions: what the transaction drove on an input stands there if they spare it. -/
theorem exists_runsTo_of_encode_then_defined {i : Instr} {es : List (HostEvent cfg.wIn)}
    (hp : b.pending = .transact (encode cfg.wIn i) :: es) (hdef : es.all eventDefined = true) :
    ∃ b' : Block cfg, RunsTo (es.length + 1) ⟨cfg, b⟩ ⟨cfg, b'⟩ ∧
      (es.all sparesEncIn = true → b.encSide.After ((sampleDriven i).map (samplePattern cfg.wIn)) b'.encSide) ∧
      (es.all sparesDecIn = true → b.decSide.After (codeDriven cfg.wIn i) b'.decSide) := by
  obtain ⟨b₁, hstep, hp₁, hE₁, hD₁⟩ := step_of_encode_sides hp
  obtain ⟨b', hrun, hE, hD⟩ := exists_runsTo_of_defined hp₁ hdef
  exact ⟨b', hrun.cons hstep, fun hs => hE₁.trans (hE hs), fun hs => hD₁.trans (hD hs)⟩

/-- The last value a list gives is the last its tail gives, if any, and otherwise its head's. -/
theorem getLast?_filterMap_cons {α β : Type} (f : α → Option β) (a : α) (l : List α) :
    ((a :: l).filterMap f).getLast? = (l.filterMap f).getLast?.or (f a) := by
  cases h : f a with
  | none => simp [h]
  | some v => simp [h, List.getLast?_cons, Option.or_some]

/-- A script of transactions runs, and leaves on each input the last value that any of them drove there. -/
theorem exists_runsTo_of_instrs {is : List Instr} {rest : List (HostEvent cfg.wIn)}
    (hp : b.pending = is.map (fun i => HostEvent.transact (encode cfg.wIn i)) ++ rest) :
    ∃ b' : Block cfg, RunsTo is.length ⟨cfg, b⟩ ⟨cfg, b'⟩ ∧ b'.pending = rest ∧
      b.encSide.After ((is.filterMap sampleDriven).getLast?.map (samplePattern cfg.wIn)) b'.encSide ∧
      b.decSide.After (is.filterMap (codeDriven cfg.wIn)).getLast? b'.decSide := by
  induction is generalizing b with
  | nil => exact ⟨b, rfl, hp, .refl _, .refl _⟩
  | cons i is ih =>
    obtain ⟨b₁, hstep, hp₁, hE₁, hD₁⟩ := step_of_encode_sides hp
    obtain ⟨b', hrun, hp', hE, hD⟩ := ih hp₁
    refine ⟨b', hrun.cons hstep, hp', ?_, ?_⟩
    · rw [getLast?_filterMap_cons, Option.map_or]
      exact hE₁.trans hE
    · rw [getLast?_filterMap_cons]
      exact hD₁.trans hD

end Scripts

/-- Settles O26: either host leaves the operand on the port, stable, and the outputs are a function of it. -/
theorem outputsDependOnOperandAlone : Obligations.OutputsDependOnOperandAlone := by
  unfold Obligations.OutputsDependOnOperandAlone
  constructor
  · intro cfg b₁ b₂ x es₁ es₂ hp₁ hp₂ hdef₁ hs₁ hdef₂ hs₂
    obtain ⟨b₁', hrun₁, hE₁, -⟩ := exists_runsTo_of_encode_then_defined hp₁ hdef₁
    obtain ⟨b₂', hrun₂, hE₂, -⟩ := exists_runsTo_of_encode_then_defined hp₂ hdef₂
    obtain ⟨hset₁, hout₁, hclamp₁⟩ := Block.encOutputs_of_after_some (hE₁ hs₁)
    obtain ⟨hset₂, hout₂, hclamp₂⟩ := Block.encOutputs_of_after_some (hE₂ hs₂)
    exact ⟨b₁', b₂', hrun₁, hrun₂, hset₁, hset₂, hout₁.trans hout₂.symm, hclamp₁.trans hclamp₂.symm⟩
  · intro cfg b₁ b₂ c es₁ es₂ hp₁ hp₂ hdef₁ hs₁ hdef₂ hs₂
    obtain ⟨b₁', hrun₁, -, hD₁⟩ := exists_runsTo_of_encode_then_defined hp₁ hdef₁
    obtain ⟨b₂', hrun₂, -, hD₂⟩ := exists_runsTo_of_encode_then_defined hp₂ hdef₂
    obtain ⟨hset₁, hout₁⟩ := Block.decOutput_of_after_some (hD₁ hs₁)
    obtain ⟨hset₂, hout₂⟩ := Block.decOutput_of_after_some (hD₂ hs₂)
    exact ⟨b₁', b₂', hrun₁, hrun₂, hset₁, hset₂, hout₁.trans hout₂.symm⟩

/-- Settles O27: the outputs are the functions of the values the script leaves on the inputs. -/
theorem lastTransactionOfEachPortDecides : Obligations.LastTransactionOfEachPortDecides := by
  unfold Obligations.LastTransactionOfEachPortDecides
  intro cfg b is rest hp
  obtain ⟨b', hrun, hp', hE, hD⟩ := exists_runsTo_of_instrs hp
  refine ⟨b', hrun, hp', fun x hx => ?_, fun c hc => ?_⟩
  · rw [hx] at hE
    exact Block.encOutputs_of_after_some hE
  · rw [hc] at hD
    exact Block.decOutput_of_after_some hD

/-! ## The clamp indicator -/

/-- The full-width magnitude is exact: `-2^(w-1)`, whose negation does not fit `w` signed bits, fits as an unsigned
pattern (40_encoder.md R49). -/
theorem toNat_magFull {w : Nat} (x : BitVec w) : (magFull x).toNat = x.toInt.natAbs := by
  have hx := x.isLt
  unfold magFull signNet
  cases hneg : x.msb with
  | false => simp [BitVec.toInt_eq_msb_cond, hneg]
  | true =>
    have hpos : 0 < x.toNat := by
      have := BitVec.msb_eq_true_iff_two_mul_ge.1 hneg
      omega
    rw [if_pos rfl, ← BitVec.neg_eq_not_add, BitVec.toNat_neg, Nat.mod_eq_of_lt (by omega),
      BitVec.toInt_eq_msb_cond, if_pos hneg]
    omega

theorem sampleClamped_eq {w : Nat} (x : BitVec w) : sampleClamped x = decide (4095 < x.toInt.natAbs) := by
  simp [sampleClamped, clamped, clampMax, toNat_magFull]

/-- Settles O8: the flag decides only whether the port exists; the other outputs do not mention it. -/
theorem clampIndicatorShowsClampAndNothingElse : Obligations.ClampIndicatorShowsClampAndNothingElse := by
  unfold Obligations.ClampIndicatorShowsClampAndNothingElse
  intro cfg₁ b₁ x hflag cfg₀ b₀
  obtain ⟨-, -, hclamp⟩ := b₁.transactEnc_outputs (samplePattern cfg₁.wIn x)
  refine ⟨_, b₀.transactEnc (samplePattern cfg₁.wIn x), rfl, rfl, ?_, Block.encClamp_of_no_flag rfl, rfl, rfl⟩
  rw [hclamp, if_pos hflag, sampleClamped_eq]

end Sys2Proof.Machine

/-! # Ports: whole values only, and both inputs changed at once (20_memory.md R32, R35; 60_exceptions.md R82;
70_reset_and_hazards.md R92, R97) -/

namespace Sys2Proof.Machine

/-! ## A port carries a whole value or nothing

A transaction leaves on a port a defined value or what stood there, and a bare drive that is not refused does the same,
so a step never puts a value there that is defined in part only. -/

section Whole

variable {w : Nat} {v : Signal w}

theorem signalWhole_of_isDefined (h : v.isDefined = true) : signalWhole v = true := by
  simp [signalWhole, h]

theorem InputSide.After.signalWhole_input {o : Option (BitVec w)} {s t : InputSide w} (h : After o s t)
    (hs : signalWhole s.input = true) : signalWhole t.input = true := by
  cases o with
  | some x => exact h.1 ▸ signalWhole_of_isDefined (Signal.isDefined_ofBits x)
  | none => exact h.1 ▸ hs

theorem signalWhole_getD_of_driveDefined {d : Option (Signal w)} (hd : driveDefined d = true)
    (hv : signalWhole v = true) : signalWhole (d.getD v) = true := by
  cases d with
  | some u => exact signalWhole_of_isDefined (by simpa [driveDefined] using hd)
  | none => exact hv

variable {cfg : Config} {b b' : Block cfg}

theorem Block.portsWhole_iff :
    b.portsWhole = true ↔ signalWhole b.encIn = true ∧ signalWhole b.decIn = true := by
  simp [Block.portsWhole]

theorem exec_keeps_portsWhole {i : Instr} (hb : b.portsWhole = true) (h : exec i ⟨cfg, b⟩ = .next ⟨cfg, b'⟩) :
    b'.portsWhole = true := by
  obtain ⟨_, hexec, -, hE, hD⟩ := exec_sides i b
  obtain rfl : _ = b' := by simpa [hexec] using h
  obtain ⟨henc, hdec⟩ := Block.portsWhole_iff.1 hb
  exact Block.portsWhole_iff.2 ⟨hE.signalWhole_input henc, hD.signalWhole_input hdec⟩

theorem Block.applyDrive_keeps_portsWhole {d : Drive cfg.wIn} (hb : b.portsWhole = true)
    (henc : driveDefined d.enc = true) (hdec : driveDefined d.dec = true) : (b.applyDrive d).portsWhole = true := by
  obtain ⟨hwe, hwd⟩ := Block.portsWhole_iff.1 hb
  exact Block.portsWhole_iff.2
    ⟨signalWhole_getD_of_driveDefined henc hwe, signalWhole_getD_of_driveDefined hdec hwd⟩

end Whole

/-- Settles O32, by the four things a step that answers a next state can do: idle, run an instruction, drive defined
values, wait. -/
theorem stepKeepsPortsWhole : Obligations.StepKeepsPortsWhole := by
  unfold Obligations.StepKeepsPortsWhole
  rintro ⟨cfg, b⟩ t hb h
  have hpop : b.popEvent.portsWhole = true := hb
  obtain ⟨b', rfl, -⟩ := step_next_sides h
  obtain ⟨-, ht⟩ | ⟨_, _, i, -, -, hexec⟩ | ⟨d, _, -, henc, hdec, ht⟩ | ⟨_, -, ht⟩ := step_next_cases h
  · cases ht
    exact hb
  · exact exec_keeps_portsWhole hpop hexec
  · cases ht
    exact Block.applyDrive_keeps_portsWhole hpop henc hdec
  · cases ht
    exact hb

/-! ## Both inputs changed at once

Whichever way the host has driven the two inputs, each now holds its value, stable, and the outputs are functions of
these two values. -/

section Simultaneous

variable {cfg : Config} {b v t : Block cfg} {x : Int} {c : Code}

/-- `t` is the block `b` after the host has driven `x` and `c`, in whatever order, and both have settled. -/
def BothDriven (x : Int) (c : Code) (b t : Block cfg) : Prop :=
  b.encSide.After (some (samplePattern cfg.wIn x)) t.encSide ∧ b.decSide.After (some c) t.decSide

theorem BothDriven.settled (h : BothDriven x c b t) : t.encSettled = true ∧ t.decSettled = true :=
  ⟨(Block.encOutputs_of_after_some h.1).1, (Block.decOutput_of_after_some h.2).1⟩

theorem BothDriven.outputs_eq (hv : BothDriven x c b v) (ht : BothDriven x c b t) :
    v.encOut = t.encOut ∧ v.encClamp = t.encClamp ∧ v.decOut = t.decOut := by
  obtain ⟨-, houtv, hclampv⟩ := Block.encOutputs_of_after_some hv.1
  obtain ⟨-, houtt, hclampt⟩ := Block.encOutputs_of_after_some ht.1
  obtain ⟨-, hdecv⟩ := Block.decOutput_of_after_some hv.2
  obtain ⟨-, hdect⟩ := Block.decOutput_of_after_some ht.2
  exact ⟨houtv.trans houtt.symm, hclampv.trans hclampt.symm, hdecv.trans hdect.symm⟩

theorem exists_exec_enc_dec_bothDriven (x : Int) (c : Code) (b : Block cfg) :
    ∃ t₁ t : Block cfg, exec (.enc x) ⟨cfg, b⟩ = .next ⟨cfg, t₁⟩ ∧ exec (.dec c) ⟨cfg, t₁⟩ = .next ⟨cfg, t⟩ ∧
      BothDriven x c b t := by
  obtain ⟨t₁, hexec₁, -, hE₁, hD₁⟩ := exec_sides (.enc x) b
  obtain ⟨t, hexec, -, hE, hD⟩ := exec_sides (.dec c) t₁
  exact ⟨t₁, t, hexec₁, hexec, hE₁.trans hE, hD₁.trans hD⟩

theorem exists_exec_dec_enc_bothDriven (x : Int) (c : Code) (b : Block cfg) :
    ∃ u₁ u : Block cfg, exec (.dec c) ⟨cfg, b⟩ = .next ⟨cfg, u₁⟩ ∧ exec (.enc x) ⟨cfg, u₁⟩ = .next ⟨cfg, u⟩ ∧
      BothDriven x c b u := by
  obtain ⟨u₁, hexec₁, -, hE₁, hD₁⟩ := exec_sides (.dec c) b
  obtain ⟨u, hexec, -, hE, hD⟩ := exec_sides (.enc x) u₁
  exact ⟨u₁, u, hexec₁, hexec, hE₁.trans hE, hD₁.trans hD⟩

theorem step_of_defined_drive {d : Drive cfg.wIn} {rest : List (HostEvent cfg.wIn)}
    (hp : b.pending = .drive d :: rest) (henc : driveDefined d.enc = true) (hdec : driveDefined d.dec = true) :
    step ⟨cfg, b⟩ = .next ⟨cfg, b.popEvent.applyDrive d⟩ := by
  rw [step_of_drive hp, Block.acceptDrive, if_pos henc, if_pos hdec]

/-- A bare drive of defined values and a wait are two steps: the inputs change, then settle. -/
theorem runsTo_of_drive_then_wait {d : Drive cfg.wIn} {rest : List (HostEvent cfg.wIn)}
    (hp : b.pending = .drive d :: .wait :: rest) (henc : driveDefined d.enc = true)
    (hdec : driveDefined d.dec = true) :
    RunsTo 2 ⟨cfg, b⟩ ⟨cfg, (b.popEvent.applyDrive d).popEvent.settle⟩ := by
  have hwait : (b.popEvent.applyDrive d).pending = .wait :: rest := by simp [hp]
  exact .cons (step_of_defined_drive hp henc hdec) (.cons (step_of_wait hwait) rfl)

theorem exists_runsTo_of_drive_then_wait_bothDriven {rest : List (HostEvent cfg.wIn)}
    (hp : b.pending = .drive ⟨some (.ofBits (samplePattern cfg.wIn x)), some (.ofBits c)⟩ :: .wait :: rest) :
    ∃ v : Block cfg, RunsTo 2 ⟨cfg, b⟩ ⟨cfg, v⟩ ∧ BothDriven x c b v :=
  ⟨_, runsTo_of_drive_then_wait hp (by simp [driveDefined]) (by simp [driveDefined]), ⟨rfl, rfl⟩, rfl, rfl⟩

end Simultaneous

/-- Settles O28: the simultaneous change and the two transactions in either order all leave `x` and `c` settled. -/
theorem simultaneousChangesAreTwoTransactions : Obligations.SimultaneousChangesAreTwoTransactions := by
  unfold Obligations.SimultaneousChangesAreTwoTransactions
  intro cfg b x c rest hp
  obtain ⟨v, hrun, hv⟩ := exists_runsTo_of_drive_then_wait_bothDriven hp
  obtain ⟨t₁, t, hexec₁, hexec, ht⟩ := exists_exec_enc_dec_bothDriven x c b
  obtain ⟨u₁, u, hexecu₁, hexecu, hu⟩ := exists_exec_dec_enc_bothDriven x c b
  obtain ⟨henc, hdec⟩ := hv.settled
  obtain ⟨houtt, hclampt, hdect⟩ := hv.outputs_eq ht
  exact ⟨v, t₁, t, u₁, u, hrun, hexec₁, hexec, hexecu₁, hexecu, henc, hdec, houtt, hclampt, hdect, hv.outputs_eq hu⟩

end Sys2Proof.Machine

/-! # Encoding: requests and instructions (30_encoding.md R38, R39, R43 to R46) -/

namespace Sys2Proof.Machine

/-! ## A sample and its pattern

The integers in range and the patterns of a port are in bijection; `samplePattern_sampleValue` is the other half. -/

section Samples

variable {w : Nat} {x : Int}

theorem sampleInRange_iff : sampleInRange w x = true ↔ -2 ^ (w - 1) ≤ x ∧ x < 2 ^ (w - 1) := by
  simp [sampleInRange]

theorem sampleValue_samplePattern (hw : 0 < w) (h : sampleInRange w x = true) :
    sampleValue (samplePattern w x) = x := by
  obtain ⟨hlo, hhi⟩ := sampleInRange_iff.1 h
  exact BitVec.toInt_ofInt_eq_self hw hlo hhi

theorem sampleInRange_sampleValue (v : BitVec w) : sampleInRange w (sampleValue v) = true :=
  sampleInRange_iff.2 ⟨BitVec.le_toInt v, BitVec.toInt_lt⟩

theorem wIn_pos (cfg : Config) : 0 < cfg.wIn := Nat.lt_of_lt_of_le (by decide) cfg.wIn_ge

end Samples

/-! ## What a defined pattern decodes to -/

section Requests

variable {w : Nat}

theorem decode_onEncIn_ofBits (v : BitVec w) : decode (.onEncIn (.ofBits v)) = .ok (.enc (sampleValue v)) := by
  simp [decode]

theorem decode_onDecIn_ofBits (c : Code) : decode (.onDecIn (.ofBits c) : Request w) = .ok (.dec c) := by
  simp [decode]

theorem decode_chained_ofBits (v : BitVec w) : decode (.chained (.ofBits v)) = .ok (.rt (sampleValue v)) := by
  simp [decode]

/-- An undefined bit is the only thing that keeps a request from standing for an instruction. -/
theorem exists_decode_of_requestDefined {r : Request w} (h : requestDefined r = true) : ∃ i, decode r = .ok i := by
  cases hdec : decode r with
  | ok i => exact ⟨i, rfl⟩
  | error e => exact absurd h (by simp [decode_error_requestDefined hdec])

/-- A request that stands for an instruction is the one the host drives for it. -/
theorem encode_of_decode {r : Request w} {i : Instr} (h : decode r = .ok i) : encode w i = r := by
  obtain ⟨v, rfl, hv, rfl⟩ | ⟨v, rfl, hv, rfl⟩ | ⟨v, rfl, hv, rfl⟩ := decode_ok_cases h
  · rw [encode, samplePattern_sampleValue, ← Signal.eq_ofBits_of_isDefined hv]
  · rw [encode, ← Signal.eq_ofBits_of_isDefined hv]
  · rw [encode, samplePattern_sampleValue, ← Signal.eq_ofBits_of_isDefined hv]

theorem wellFormed_of_decode {cfg : Config} {r : Request cfg.wIn} {i : Instr} (h : decode r = .ok i) :
    i.wellFormed cfg = true := by
  obtain ⟨v, -, -, rfl⟩ | ⟨v, -, -, rfl⟩ | ⟨v, -, -, rfl⟩ := decode_ok_cases h
  · exact sampleInRange_sampleValue v.bits
  · rfl
  · exact sampleInRange_sampleValue v.bits

end Requests

/-- Settles O37: a sample in range is the value of its own pattern. -/
theorem decodeOfEncodeIsIdentity : Obligations.DecodeOfEncodeIsIdentity := by
  unfold Obligations.DecodeOfEncodeIsIdentity
  intro cfg i h
  cases i with
  | enc x => rw [encode, decode_onEncIn_ofBits, sampleValue_samplePattern (wIn_pos cfg) h]
  | dec c => exact decode_onDecIn_ofBits c
  | rt x => rw [encode, decode_chained_ofBits, sampleValue_samplePattern (wIn_pos cfg) h]

/-- Settles O38: a defined request decodes, and what it decodes to encodes back to it. -/
theorem everyDefinedPatternIsLegal : Obligations.EveryDefinedPatternIsLegal := by
  unfold Obligations.EveryDefinedPatternIsLegal
  intro cfg r h
  obtain ⟨i, hdec⟩ := exists_decode_of_requestDefined h
  refine ⟨i, hdec, wellFormed_of_decode hdec, encode_of_decode hdec, fun ⟨cfg', b⟩ => ?_⟩
  obtain ⟨b', hexec, -⟩ := exec_sides i b
  exact ⟨_, hexec⟩

/-- Settles O39: each defined word decodes to the value of its bits, and the last one has an undefined bit. -/
theorem sampleWordsDecode : Obligations.SampleWordsDecode := by
  unfold Obligations.SampleWordsDecode
  exact ⟨decode_onEncIn_ofBits _, decode_onEncIn_ofBits _, decode_onEncIn_ofBits _, decode_onDecIn_ofBits _,
    decode_chained_ofBits _, rfl⟩

end Sys2Proof.Machine

/-! # The code byte: its fields, the encoder's integer form, and the mask (30_encoding.md R41, R42; 40_encoder.md R47,
R50 to R55; 41_decoder.md R61, R62) -/

namespace Sys2Proof.Machine

/-! ## The three fields -/

section Fields

variable (u : Code) (p : Bool) (seg : BitVec 3) (mant : BitVec 4)

theorem rawSign_eq : rawSign u = decide (128 ≤ u.toNat) := by
  have hu := u.isLt
  rw [rawSign, ← BitVec.testBit_toNat, Nat.testBit_eq_decide_div_mod_eq]
  exact decide_eq_decide.2 (by omega)

theorem toNat_rawSeg : (rawSeg u).toNat = u.toNat / 16 % 8 := by
  simp [rawSeg, Nat.shiftRight_eq_div_pow]

theorem toNat_rawMant : (rawMant u).toNat = u.toNat % 16 := by
  simp [rawMant]

theorem toNat_packRaw : (packRaw p seg mant).toNat = (if p then 0x80 else 0) + seg.toNat * 0x10 + mant.toNat := by
  have hseg := seg.isLt
  have hmant := mant.isLt
  rw [packRaw, BitVec.toNat_append, ← Nat.shiftLeft_add_eq_or_of_lt hmant, BitVec.toNat_append,
    ← Nat.shiftLeft_add_eq_or_of_lt hseg]
  cases p with
  | false => simp [Nat.shiftLeft_eq]
  | true => simp [Nat.shiftLeft_eq]; omega

theorem packRaw_fields : packRaw (rawSign u) (rawSeg u) (rawMant u) = u := by
  have hu := u.isLt
  apply BitVec.eq_of_toNat_eq
  rw [toNat_packRaw, rawSign_eq, toNat_rawSeg, toNat_rawMant]
  simp only [decide_eq_true_eq]
  split <;> omega

@[simp] theorem rawSign_packRaw : rawSign (packRaw p seg mant) = p := by
  have hseg := seg.isLt
  have hmant := mant.isLt
  rw [rawSign_eq, toNat_packRaw]
  cases p with
  | false => simp; omega
  | true => simp; omega

@[simp] theorem rawSeg_packRaw : rawSeg (packRaw p seg mant) = seg := by
  have hseg := seg.isLt
  have hmant := mant.isLt
  apply BitVec.eq_of_toNat_eq
  rw [toNat_rawSeg, toNat_packRaw]
  split <;> omega

@[simp] theorem rawMant_packRaw : rawMant (packRaw p seg mant) = mant := by
  have hmant := mant.isLt
  apply BitVec.eq_of_toNat_eq
  rw [toNat_rawMant, toNat_packRaw]
  split <;> omega

end Fields

/-! ## The mask -/

section Mask

variable (c : Code)

@[simp] theorem maskCode_maskCode : maskCode (maskCode c) = c := by
  simp [maskCode]

theorem rawSign_maskCode : rawSign (maskCode c) = c.getLsbD 7 := by
  simp [rawSign, maskCode, transmissionMask]

theorem rawSeg_maskCode : rawSeg (maskCode c) = c.extractLsb' 4 3 ^^^ 0b101#3 :=
  BitVec.extractLsb'_xor

theorem rawMant_maskCode : rawMant (maskCode c) = c.extractLsb' 0 4 ^^^ 0b0101#4 :=
  BitVec.extractLsb'_xor

end Mask

/-! ## The encoder's integer form (40_encoder.md R47) -/

section Encoder

theorem toNat_mag12 {w : Nat} (m : BitVec w) : (mag12 m).toNat = min m.toNat 4095 := by
  by_cases h : 4095 < m.toNat
  · simp [mag12, clamped, clampMax, h, h.le]
  · simp [mag12, clamped, clampMax, h]; omega

theorem toNat_mag12_magFull {w : Nat} (x : BitVec w) : (mag12 (magFull x)).toNat = intMag x.toInt := by
  rw [toNat_mag12, toNat_magFull, intMag]

theorem intSeg_of_lt {m : Nat} (h : m < 32) : intSeg m = 0 := if_pos h

/-- The segment is the highest set bit's index less 4. -/
theorem intSeg_of_highest_bit {m h : Nat} (hh : 5 ≤ h) (hlo : 2 ^ h ≤ m) (hhi : m < 2 ^ (h + 1)) :
    intSeg m = h - 4 := by
  have h32 : 2 ^ 5 ≤ m := (Nat.pow_le_pow_right (by decide) hh).trans hlo
  rw [intSeg, if_neg (by omega), (Nat.log2_eq_iff (by omega)).2 ⟨hlo, hhi⟩]

theorem toNat_segSel (m : BitVec 12) : (segSel m).toNat = intSeg m.toNat := by
  have hm := m.isLt
  simp only [segSel, ← BitVec.testBit_toNat, Nat.testBit_eq_decide_div_mod_eq, decide_eq_true_eq]
  split_ifs
  · exact (intSeg_of_highest_bit (h := 11) (by decide) (by omega) (by omega)).symm
  · exact (intSeg_of_highest_bit (h := 10) (by decide) (by omega) (by omega)).symm
  · exact (intSeg_of_highest_bit (h := 9) (by decide) (by omega) (by omega)).symm
  · exact (intSeg_of_highest_bit (h := 8) (by decide) (by omega) (by omega)).symm
  · exact (intSeg_of_highest_bit (h := 7) (by decide) (by omega) (by omega)).symm
  · exact (intSeg_of_highest_bit (h := 6) (by decide) (by omega) (by omega)).symm
  · exact (intSeg_of_highest_bit (h := 5) (by decide) (by omega) (by omega)).symm
  · exact (intSeg_of_lt (by omega)).symm

theorem toNat_encShift : ∀ seg : BitVec 3, (encShift seg).toNat = intShift seg.toNat := by
  decide

theorem toNat_encMant (m : BitVec 12) (shamt : BitVec 3) : (encMant m shamt).toNat = m.toNat / 2 ^ shamt.toNat % 16 := by
  simp [encMant, Nat.shiftRight_eq_div_pow]

theorem toNat_encMant_segSel (m : BitVec 12) : (encMant m (encShift (segSel m))).toNat = intMant m.toNat := by
  rw [toNat_encMant, toNat_encShift, toNat_segSel, intMant]

variable {w : Nat} (x : BitVec w)

theorem rawSign_rawOfSample : rawSign (rawOfSample x) = decide (x.toInt < 0) := by
  rw [rawOfSample, rawOfMagnitude, rawSign_packRaw, signNet, BitVec.msb_eq_toInt]

theorem toNat_rawSeg_rawOfSample : (rawSeg (rawOfSample x)).toNat = intSeg (intMag x.toInt) := by
  rw [rawOfSample, rawOfMagnitude, rawSeg_packRaw, toNat_segSel, toNat_mag12_magFull]

theorem toNat_rawMant_rawOfSample : (rawMant (rawOfSample x)).toNat = intMant (intMag x.toInt) := by
  rw [rawOfSample, rawOfMagnitude, rawMant_packRaw, toNat_encMant_segSel, toNat_mag12_magFull]

theorem maskCode_encodeSample : maskCode (encodeSample x) = rawOfSample x :=
  maskCode_maskCode _

end Encoder

/-- Settles O9: unmasking ENC's output gives back the raw code it packed. -/
theorem codeByteFields : Obligations.CodeByteFields := by
  unfold Obligations.CodeByteFields
  refine ⟨toNat_packRaw, fun u => ⟨rawSign_eq u, toNat_rawSeg u, toNat_rawMant u, packRaw_fields u⟩, ?_,
    fun c => ⟨rawSign_maskCode c, rawSeg_maskCode c, rawMant_maskCode c⟩⟩
  intro cfg b x X
  obtain ⟨b', hexec, -, henc, -⟩ := exec_sides (.enc x) b
  obtain ⟨-, hout, -⟩ := Block.encOutputs_of_after_some henc
  refine ⟨b', hexec, ?_⟩
  rw [← rawSign_maskCode, ← rawSeg_maskCode, ← rawMant_maskCode, hout, maskCode_encodeSample]
  exact ⟨by simp [rawSign_rawOfSample, X], toNat_rawSeg_rawOfSample _, toNat_rawMant_rawOfSample _⟩

end Sys2Proof.Machine

/-! # DEC's values and the round trip (41_decoder.md R60 to R68; 42_roundtrip.md R70) -/

namespace Sys2Proof.Machine

/-! ## The decoder's magnitude

In each segment the magnitudes are the odd multiples of half the encoder's step `2 ^ shamt`. -/

section DecoderMagnitude

variable (seg : BitVec 3) (mant : BitVec 4)

theorem toNat_segBase : ∀ seg : BitVec 3, (segBase seg).toNat = segLo seg.toNat := by
  decide

theorem toNat_reconShift : ∀ seg : BitVec 3, (reconShift seg).toNat = intShift seg.toNat - 1 := by
  decide

theorem two_pow_intShift_pred_le : 2 ^ (intShift seg.toNat - 1) ≤ 64 :=
  have hseg : intShift seg.toNat - 1 ≤ 6 := by
    have := seg.isLt
    unfold intShift
    omega
  Nat.pow_le_pow_right (by decide) hseg

theorem two_pow_intShift (s : Nat) : 2 ^ intShift s = 2 * 2 ^ (intShift s - 1) := by
  have hpos : intShift s = intShift s - 1 + 1 := by
    unfold intShift
    omega
  rw [hpos, Nat.pow_succ', Nat.add_sub_cancel]

/-- The first magnitude of a segment is an even multiple of half its step. -/
theorem exists_segLo_eq (s : Nat) : ∃ q ≤ 16, segLo s = 2 * q * 2 ^ (intShift s - 1) := by
  cases s with
  | zero => exact ⟨0, by decide, rfl⟩
  | succ s => exact ⟨16, le_rfl, by simp [segLo, intShift, Nat.pow_add]; ring⟩

theorem toNat_stepNet : (stepNet mant (reconShift seg)).toNat = (2 * mant.toNat + 1) * 2 ^ (intShift seg.toNat - 1) := by
  have hmant := mant.isLt
  have hcat : (mant ++ 1#1).toNat = 2 * mant.toNat + 1 := by
    rw [BitVec.toNat_append, ← Nat.shiftLeft_add_eq_or_of_lt (1#1).isLt, Nat.shiftLeft_eq]
    simp [Nat.mul_comm]
  have hle : (2 * mant.toNat + 1) * 2 ^ (intShift seg.toNat - 1) ≤ 31 * 64 :=
    Nat.mul_le_mul (by omega) (two_pow_intShift_pred_le seg)
  rw [stepNet, BitVec.toNat_shiftLeft, BitVec.toNat_setWidth, hcat, toNat_reconShift, Nat.shiftLeft_eq,
    Nat.mod_eq_of_lt (a := 2 * mant.toNat + 1) (by omega), Nat.mod_eq_of_lt (by omega)]

/-- The sum of base and step is an odd multiple of half the segment's step, the 63rd at most. -/
theorem exists_segLo_add_step_eq : ∃ k ≤ 31,
    segLo seg.toNat + (2 * mant.toNat + 1) * 2 ^ (intShift seg.toNat - 1) =
      (2 * k + 1) * 2 ^ (intShift seg.toNat - 1) := by
  have hmant := mant.isLt
  obtain ⟨q, hq, hlo⟩ := exists_segLo_eq seg.toNat
  exact ⟨q + mant.toNat, by omega, by rw [hlo]; ring⟩

theorem toNat_decMag : (decMag seg mant).toNat =
    segLo seg.toNat + (2 * mant.toNat + 1) * 2 ^ (intShift seg.toNat - 1) := by
  obtain ⟨k, hk, hsum⟩ := exists_segLo_add_step_eq seg mant
  have hle : (2 * k + 1) * 2 ^ (intShift seg.toNat - 1) ≤ 63 * 64 :=
    Nat.mul_le_mul (by omega) (two_pow_intShift_pred_le seg)
  rw [decMag, BitVec.toNat_add, BitVec.toNat_setWidth, toNat_segBase, toNat_stepNet,
    Nat.mod_eq_of_lt (b := 2 ^ 12) (by omega), Nat.mod_eq_of_lt (by omega)]

theorem exists_decMag_eq : ∃ k ≤ 31, (decMag seg mant).toNat = (2 * k + 1) * 2 ^ (intShift seg.toNat - 1) := by
  rw [toNat_decMag]
  exact exists_segLo_add_step_eq seg mant

theorem decMag_bounds : 1 ≤ (decMag seg mant).toNat ∧ (decMag seg mant).toNat ≤ 4032 := by
  obtain ⟨k, hk, heq⟩ := exists_decMag_eq seg mant
  rw [heq]
  have hodd : 2 * k + 1 ≤ 63 := by omega
  exact ⟨Nat.mul_pos (by omega) (by positivity), Nat.mul_le_mul hodd (two_pow_intShift_pred_le seg)⟩

theorem decMag_mod_step :
    (decMag seg mant).toNat % 2 ^ intShift seg.toNat = 2 ^ (intShift seg.toNat - 1) := by
  obtain ⟨k, -, heq⟩ := exists_decMag_eq seg mant
  rw [heq, two_pow_intShift, Nat.mul_mod_mul_right, Nat.mul_add_mod, Nat.one_mul]

end DecoderMagnitude

/-! ## The sign (41_decoder.md R67) -/

section Sign

variable {w : Nat} (neg : Bool) (dmag : BitVec 12)

theorem toInt_applySign (hw : 13 ≤ w) :
    (applySign w neg dmag).toInt = if neg then -(dmag.toNat : Int) else dmag.toNat := by
  have hd := dmag.isLt
  have hpow : 2 ^ 13 ≤ 2 ^ w := Nat.pow_le_pow_right (by decide) hw
  have habs : (dmag.setWidth w).toInt = dmag.toNat := by
    rw [BitVec.toInt_setWidth, Int.bmod_eq_of_le (by omega) (by omega)]
  cases neg with
  | false => exact habs
  | true =>
    rw [applySign, if_pos rfl, if_pos rfl, BitVec.toInt_neg, habs, Int.bmod_eq_of_le (by omega) (by omega)]

/-- From bit 12 up the pattern of a nonzero magnitude repeats the sign: no lower bit is lost to the negation. -/
theorem getLsbD_applySign_of_le (hd : dmag ≠ 0#12) {i : Nat} (hi : 12 ≤ i) (hiw : i < w) :
    (applySign w neg dmag).getLsbD i = neg := by
  have hhigh : dmag.getLsbD i = false := BitVec.getLsbD_of_ge _ _ hi
  cases neg with
  | false => simp [applySign, hhigh]
  | true =>
    obtain ⟨j, hj, hset⟩ : ∃ j < 12, dmag.getLsbD j = true := by
      by_contra! hnone
      exact hd (BitVec.eq_of_getLsbD_eq fun j hj => by simpa using hnone j hj)
    have hset' : ∃ j < i, (dmag.setWidth w).getLsbD j = true := ⟨j, by omega, by simp [hset]; omega⟩
    rw [applySign, if_pos rfl, BitVec.getLsbD_neg, decide_eq_true hset', decide_eq_true hiw]
    simp [hhigh]

end Sign

/-! ## The value of a code -/

section Value

/-- `uint(dmag)` of a wire code (41_decoder.md R68); `natAbs_toInt_decodeCode` ties it to `dec_out`. -/
def codeMag (c : Code) : Nat := (decMag (rawSeg (maskCode c)) (rawMant (maskCode c))).toNat

variable {w : Nat} (c : Code)

theorem codeMag_bounds : 1 ≤ codeMag c ∧ codeMag c ≤ 4032 := decMag_bounds _ _

theorem codeMag_mod_step :
    codeMag c % 2 ^ intShift (rawSeg (maskCode c)).toNat = 2 ^ (intShift (rawSeg (maskCode c)).toNat - 1) :=
  decMag_mod_step _ _

theorem toInt_decodeCode (hw : 13 ≤ w) :
    (decodeCode w c).toInt = if c.getLsbD 7 then -(codeMag c : Int) else codeMag c := by
  rw [decodeCode, sampleOfRaw, toInt_applySign _ _ hw, rawSign_maskCode, codeMag]

theorem natAbs_toInt_decodeCode (hw : 13 ≤ w) : (decodeCode w c).toInt.natAbs = codeMag c := by
  rw [toInt_decodeCode c hw]
  split <;> simp

theorem toInt_decodeCode_neg_iff (hw : 13 ≤ w) : (decodeCode w c).toInt < 0 ↔ c.getLsbD 7 = true := by
  obtain ⟨hpos, -⟩ := codeMag_bounds c
  rw [toInt_decodeCode c hw]
  cases c.getLsbD 7 with
  | false => simp
  | true => simp; omega

theorem getLsbD_decodeCode_of_le {i : Nat} (hi : 12 ≤ i) (hiw : i < w) :
    (decodeCode w c).getLsbD i = c.getLsbD 7 := by
  obtain ⟨hpos, -⟩ := codeMag_bounds c
  rw [decodeCode, sampleOfRaw, getLsbD_applySign_of_le _ _ _ hi hiw, rawSign_maskCode]
  intro hzero
  simp [codeMag, hzero] at hpos

end Value

/-- Settles O13: the magnitude is an odd multiple of half the step, at most 63 of them, and bit 7 is the sign. -/
theorem decRangeAndSpacing : Obligations.DecRangeAndSpacing := by
  unfold Obligations.DecRangeAndSpacing
  intro cfg b c
  obtain ⟨b', hexec, -, -, hdec⟩ := exec_sides (.dec c) b
  obtain ⟨-, hout⟩ := Block.decOutput_of_after_some hdec
  obtain ⟨hpos, hle⟩ := codeMag_bounds c
  have hneg := toInt_decodeCode_neg_iff c cfg.wOut_ge
  have hmod := codeMag_mod_step c
  refine ⟨b', hexec, ?_⟩
  simp only [hout, natAbs_toInt_decodeCode c cfg.wOut_ge]
  refine ⟨hpos, hle, hneg, fun hseg => ?_, fun hseg => ?_, fun i hi hiw => ?_⟩
  · simpa [intShift, hseg] using hmod
  · have hshift : intShift (rawSeg (maskCode c)).toNat = (rawSeg (maskCode c)).toNat := max_eq_left (by omega)
    rwa [hshift] at hmod
  · simp [getLsbD_decodeCode_of_le c hi hiw, hneg]

/-! ## The round trip -/

/-- The upper middle point of an interval is its segment's first magnitude and an odd multiple of half the step. -/
theorem intRoundMag_eq (m : Nat) :
    intRoundMag m = segLo (intSeg m) + (2 * intMant m + 1) * 2 ^ (intShift (intSeg m) - 1) := by
  rw [intRoundMag, two_pow_intShift]
  ring

theorem codeMag_encodeSample {w : Nat} (x : BitVec w) : codeMag (encodeSample x) = intRoundMag (intMag x.toInt) := by
  rw [codeMag, maskCode_encodeSample, toNat_decMag, toNat_rawSeg_rawOfSample, toNat_rawMant_rawOfSample,
    intRoundMag_eq]

theorem getLsbD_encodeSample_seven {w : Nat} (x : BitVec w) : (encodeSample x).getLsbD 7 = decide (x.toInt < 0) := by
  rw [← rawSign_maskCode, maskCode_encodeSample, rawSign_rawOfSample]

theorem toInt_decodeCode_encodeSample {v w : Nat} (hw : 13 ≤ w) (x : BitVec v) :
    (decodeCode w (encodeSample x)).toInt = intRoundTrip x.toInt := by
  rw [toInt_decodeCode _ hw, codeMag_encodeSample, getLsbD_encodeSample_seven, intRoundTrip]
  simp only [decide_eq_true_eq]

/-- RT is DEC of the code that ENC of its operand leaves on `enc_out` (30_encoding.md R46). -/
theorem exec_rt_of_exec_enc {cfg : Config} {b b₁ : Block cfg} {x : Int}
    (h : exec (.enc x) ⟨cfg, b⟩ = .next ⟨cfg, b₁⟩) :
    exec (.rt x) ⟨cfg, b⟩ = exec (.dec b₁.encOut) ⟨cfg, b₁⟩ := by
  cases h
  rfl

/-- Settles O14: DEC leaves the settled encoder alone, and the decoder works on the fields the encoder packed. -/
theorem rtIsEncThenDecWithClosedForm : Obligations.RtIsEncThenDecWithClosedForm := by
  unfold Obligations.RtIsEncThenDecWithClosedForm
  intro cfg b x X
  obtain ⟨b₁, henc, -, hE₁, -⟩ := exec_sides (.enc x) b
  obtain ⟨b', hdec, -, hE, hD⟩ := exec_sides (.dec b₁.encOut) b₁
  obtain ⟨hset₁, hout₁, -⟩ := Block.encOutputs_of_after_some hE₁
  obtain ⟨hset, hout, -⟩ := Block.encOutputs_of_after_none hE hset₁
  obtain ⟨hdset, hdout⟩ := Block.decOutput_of_after_some hD
  refine ⟨b₁, b', henc, hdec, (exec_rt_of_exec_enc henc).trans hdec, hset, hdset, hout, ?_, ?_⟩
  · rw [hout]
    exact hD.1
  · rw [hdout, hout₁, toInt_decodeCode_encodeSample cfg.wOut_ge]

end Sys2Proof.Machine

/-! # The encoder, net by net (40_encoder.md R47 to R57) -/

namespace Sys2Proof.Machine

/-! ## Sign, magnitude and clamp (R48 to R50) -/

section Magnitude

variable {w : Nat}

theorem signNet_iff (x : BitVec w) : signNet x = true ↔ x.toInt < 0 := by
  simp [signNet, BitVec.msb_eq_toInt]

theorem toNat_magFull_eq_ite (x : BitVec w) :
    (magFull x).toNat = if signNet x then (2 ^ w - 1 - x.toNat + 1) % 2 ^ w else x.toNat := by
  unfold magFull
  split
  · simp
  · rfl

theorem clamped_iff (m : BitVec w) : clamped m = true ↔ 4095 < m.toNat :=
  decide_eq_true_iff

/-- The part at and above bit 12 is the quotient by 4096: cutting it to `w - 12` bits loses nothing. -/
theorem toNat_extract_high (hw : 13 ≤ w) (m : BitVec w) : (m.extractLsb' 12 (w - 12)).toNat = m.toNat / 4096 := by
  have hsplit : 2 ^ w = 4096 * 2 ^ (w - 12) := by
    rw [show 4096 = 2 ^ 12 from rfl, ← pow_add, Nat.add_sub_cancel' (by omega)]
  have hm : m.toNat / 4096 < 2 ^ (w - 12) := Nat.div_lt_of_lt_mul (hsplit ▸ m.isLt)
  rw [BitVec.extractLsb'_toNat, Nat.shiftRight_eq_div_pow, Nat.mod_eq_of_lt hm]

theorem clamped_iff_extract_ne_zero (hw : 13 ≤ w) (m : BitVec w) :
    clamped m = true ↔ m.extractLsb' 12 (w - 12) ≠ 0 := by
  rw [clamped_iff, ← BitVec.toNat_ne_iff_ne, toNat_extract_high hw, BitVec.ofNat_eq_ofNat, BitVec.toNat_zero]
  omega

theorem sampleClamped_thirteen_iff (x : BitVec 13) : sampleClamped x = true ↔ x.toInt = -4096 := by
  have hlo : -4096 ≤ x.toInt := BitVec.le_toInt x
  have hhi : x.toInt < 4096 := BitVec.toInt_lt
  rw [sampleClamped_eq, decide_eq_true_iff]
  omega

end Magnitude

/-- Settles O2: `toNat_magFull` is the claim that takes an argument, that no magnitude overflows. -/
theorem magnitudeIsExact : Obligations.MagnitudeIsExact := by
  unfold Obligations.MagnitudeIsExact
  exact fun w x => ⟨BitVec.msb_eq_getLsbD_last x, signNet_iff x, toNat_magFull_eq_ite x, toNat_magFull x⟩

/-- Settles O3: a 13-bit magnitude reaches 4096 only at the most negative sample. -/
theorem clampIsMinimum : Obligations.ClampIsMinimum := by
  unfold Obligations.ClampIsMinimum
  exact ⟨fun w hw m => ⟨toNat_mag12 m, clamped_iff m, clamped_iff_extract_ne_zero hw m⟩, sampleClamped_thirteen_iff⟩

/-! ## The segment (R51, R52)

Everything about the segment follows from one equivalence: it is at most `i` exactly below `2 ^ (i + 5)`. -/

section Segment

theorem intSeg_le_iff (m i : Nat) : intSeg m ≤ i ↔ m < 2 ^ (i + 5) := by
  unfold intSeg
  split
  · have hpow : 2 ^ 5 ≤ 2 ^ (i + 5) := Nat.pow_le_pow_right (by decide) (by omega)
    omega
  · rw [← Nat.log2_lt (by omega)]
    omega

theorem intSeg_eq_zero_iff {m : Nat} : intSeg m = 0 ↔ m < 32 := by
  simpa using intSeg_le_iff m 0

/-- Bits 4:0 never affect the segment. -/
theorem intSeg_eq_of_div_eq {m m' : Nat} (h : m / 32 = m' / 32) : intSeg m = intSeg m' := by
  refine eq_of_forall_ge_iff fun i => ?_
  have hdiv (n : Nat) : n < 2 ^ (i + 5) ↔ n / 32 < 2 ^ i := by
    rw [pow_add]
    exact (Nat.div_lt_iff_lt_mul (by decide)).symm
  rw [intSeg_le_iff, intSeg_le_iff, hdiv, hdiv, h]

theorem segEnd_eq : ∀ i : Fin 8, segEnd i = 2 ^ (i.val + 5) - 1 := by
  decide

variable (m : BitVec 12)

theorem toNat_segSel_le_iff (i : Fin 8) : (segSel m).toNat ≤ i.val ↔ m.toNat ≤ segEnd i := by
  have hpos : 0 < 2 ^ (i.val + 5) := by positivity
  rw [toNat_segSel, intSeg_le_iff, segEnd_eq]
  omega

theorem segSel_eq_zero_iff : segSel m = 0 ↔ m.toNat < 32 := by
  rw [← BitVec.toNat_inj, toNat_segSel]
  exact intSeg_eq_zero_iff

theorem intSeg_toNat_le : intSeg m.toNat ≤ 7 :=
  (intSeg_le_iff _ _).2 m.isLt

/-- Searching upward for the first `i` with `seg ≤ i` finds `seg`. -/
theorem find_first_ge : ∀ seg : BitVec 3,
    (((List.finRange 8).find? fun i => seg.toNat ≤ i.val).getD 7).val = seg.toNat := by
  decide

theorem segByTable_eq : (segByTable m).val = (segSel m).toNat := by
  simp only [segByTable, ← toNat_segSel_le_iff]
  exact find_first_ge _

/-- Each comparison of the search is one of the segment with an `i`, and three of them tell eight segments apart. -/
theorem segBySearch_eq : segBySearch m = segSel m := by
  have h31 : m.toNat ≤ 31 ↔ (segSel m).toNat ≤ 0 := (toNat_segSel_le_iff m 0).symm
  have h63 : m.toNat ≤ 63 ↔ (segSel m).toNat ≤ 1 := (toNat_segSel_le_iff m 1).symm
  have h127 : m.toNat ≤ 127 ↔ (segSel m).toNat ≤ 2 := (toNat_segSel_le_iff m 2).symm
  have h255 : m.toNat ≤ 255 ↔ (segSel m).toNat ≤ 3 := (toNat_segSel_le_iff m 3).symm
  have h511 : m.toNat ≤ 511 ↔ (segSel m).toNat ≤ 4 := (toNat_segSel_le_iff m 4).symm
  have h1023 : m.toNat ≤ 1023 ↔ (segSel m).toNat ≤ 5 := (toNat_segSel_le_iff m 5).symm
  have h2047 : m.toNat ≤ 2047 ↔ (segSel m).toNat ≤ 6 := (toNat_segSel_le_iff m 6).symm
  simp only [segBySearch, h31, h63, h127, h255, h511, h1023, h2047]
  generalize segSel m = seg
  revert seg
  decide

end Segment

/-- Settles O4: the priority encoder computes the integer form, and only the magnitude's quotient by 32 counts. -/
theorem segmentIsHighestSetBit : Obligations.SegmentIsHighestSetBit := by
  unfold Obligations.SegmentIsHighestSetBit
  refine ⟨segSel_eq_zero_iff, fun m h hh _ hlo hhi => ?_, fun m m' h => ?_⟩
  · rw [toNat_segSel, intSeg_of_highest_bit hh hlo hhi]
  · apply BitVec.eq_of_toNat_eq
    rw [toNat_segSel, toNat_segSel, intSeg_eq_of_div_eq h]

/-! ## ENC's output

ENC drives its operand, so each field of `enc_out` is the encoder's for that pattern. -/

section Output

theorem exists_exec_enc {cfg : Config} (b : Block cfg) (x : Int) :
    ∃ b' : Block cfg, exec (.enc x) ⟨cfg, b⟩ = .next ⟨cfg, b'⟩ ∧
      b'.encOut = encodeSample (samplePattern cfg.wIn x) := by
  obtain ⟨b', hexec, -, henc, -⟩ := exec_sides (.enc x) b
  obtain ⟨-, hout, -⟩ := Block.encOutputs_of_after_some henc
  exact ⟨b', hexec, hout⟩

variable {w : Nat} (x : BitVec w)

theorem rawSeg_rawOfSample : rawSeg (rawOfSample x) = segSel (mag12 (magFull x)) := by
  rw [rawOfSample, rawOfMagnitude, rawSeg_packRaw]

theorem toNat_rawOfSample : (rawOfSample x).toNat =
    128 * (if x.toInt < 0 then 1 else 0) + 16 * intSeg (intMag x.toInt) + intMant (intMag x.toInt) := by
  rw [← packRaw_fields (rawOfSample x), toNat_packRaw, rawSign_rawOfSample, toNat_rawSeg_rawOfSample,
    toNat_rawMant_rawOfSample]
  simp only [decide_eq_true_iff]
  split <;> omega

theorem toNat_encodeSample : (encodeSample x).toNat = intEncode x.toInt := by
  rw [encodeSample, maskCode, BitVec.toNat_xor, toNat_rawOfSample, intEncode, transmissionMask]
  rfl

end Output

/-- Settles O1: the packed fields are the digits of the sum, and the mask is the XOR. -/
theorem encCompletesWithIntegerForm : Obligations.EncCompletesWithIntegerForm := by
  unfold Obligations.EncCompletesWithIntegerForm
  intro cfg b x X
  obtain ⟨b', hexec, -, henc, -⟩ := exec_sides (.enc x) b
  obtain ⟨hset, hout, hclamp⟩ := Block.encOutputs_of_after_some henc
  refine ⟨b', hexec, henc.1, hset, ?_, ?_⟩
  · rw [hout, toNat_encodeSample]
  · rw [hclamp, sampleClamped_eq]

/-- Settles O5: each comparison either form makes is a comparison of the segment with an `i`. -/
theorem segmentSelectorFormsAgree : Obligations.SegmentSelectorFormsAgree := by
  unfold Obligations.SegmentSelectorFormsAgree
  refine ⟨fun m => ⟨segByTable_eq m, segBySearch_eq m⟩, segEnd_eq, toNat_segSel_le_iff, ?_⟩
  intro cfg b x m
  obtain ⟨b', hexec, hout⟩ := exists_exec_enc b x
  refine ⟨b', hexec, ?_⟩
  rw [hout, maskCode_encodeSample, rawSeg_rawOfSample]
  exact ⟨(segByTable_eq m).symm, (segBySearch_eq m).symm⟩

/-! ## The mantissa and its intervals (R53, R54, R57)

A segment is 16 steps of `2 ^ shamt` from its first magnitude, which is 0 or 16 such steps itself, so the mantissa
counts the steps from there. -/

section Mantissa

theorem segLo_of_ne_zero {s : Nat} (hs : s ≠ 0) : segLo s = 16 * 2 ^ intShift s := by
  have hshift : intShift s = s := max_eq_left (Nat.one_le_iff_ne_zero.2 hs)
  rw [segLo, if_neg hs, hshift, pow_add, Nat.mul_comm]
  rfl

theorem exists_segLo_eq_mul_step (s : Nat) : ∃ q, segLo s = 16 * q * 2 ^ intShift s := by
  by_cases hs : s = 0
  · exact ⟨0, by simp [hs, segLo]⟩
  · exact ⟨1, segLo_of_ne_zero hs⟩

theorem segLo_add_steps (s : Nat) : segLo s + 16 * 2 ^ intShift s = 2 ^ (s + 5) := by
  cases s with
  | zero => rfl
  | succ s => simp [segLo, intShift, pow_add]; ring

theorem segLo_le_iff (m s : Nat) : segLo s ≤ m ↔ s ≤ intSeg m := by
  cases s with
  | zero => simp [segLo]
  | succ s =>
    rw [← not_lt, ← not_lt, Nat.lt_succ_iff, intSeg_le_iff]
    simp [segLo]

theorem intSeg_eq_iff {m s : Nat} : intSeg m = s ↔ segLo s ≤ m ∧ m < segLo s + 16 * 2 ^ intShift s := by
  rw [segLo_add_steps, segLo_le_iff, ← intSeg_le_iff, and_comm, le_antisymm_iff]

theorem intSeg_bounds (m : Nat) :
    segLo (intSeg m) ≤ m ∧ m < segLo (intSeg m) + 16 * 2 ^ intShift (intSeg m) :=
  intSeg_eq_iff.1 rfl

/-- The first magnitude of a segment is a multiple of 16 steps, so cutting to four bits subtracts it. -/
theorem intMant_eq_offset (m : Nat) : intMant m = (m - segLo (intSeg m)) / 2 ^ intShift (intSeg m) := by
  obtain ⟨hlo, hhi⟩ := intSeg_bounds m
  obtain ⟨q, hq⟩ := exists_segLo_eq_mul_step (intSeg m)
  have hlt : (m - segLo (intSeg m)) / 2 ^ intShift (intSeg m) < 16 := Nat.div_lt_of_lt_mul (by omega)
  calc intMant m
      = (m - segLo (intSeg m) + 16 * q * 2 ^ intShift (intSeg m)) / 2 ^ intShift (intSeg m) % 16 := by
        rw [← hq, Nat.sub_add_cancel hlo, intMant]
    _ = (m - segLo (intSeg m)) / 2 ^ intShift (intSeg m) := by
        rw [Nat.add_mul_div_right _ _ (by positivity), Nat.add_mul_mod_self_left, Nat.mod_eq_of_lt hlt]

theorem intMant_eq_iff {m k : Nat} : intMant m = k ↔
    segLo (intSeg m) + k * 2 ^ intShift (intSeg m) ≤ m ∧ m < segLo (intSeg m) + (k + 1) * 2 ^ intShift (intSeg m) := by
  obtain ⟨hlo, -⟩ := intSeg_bounds m
  have hpos : 0 < 2 ^ intShift (intSeg m) := by positivity
  rw [intMant_eq_offset, Nat.div_eq_iff hpos, Nat.succ_mul]
  omega

/-- The magnitudes with one segment and mantissa are one step's worth in a row. -/
theorem intSeg_intMant_eq_iff {m s k : Nat} (hk : k < 16) : (intSeg m = s ∧ intMant m = k) ↔
    segLo s + k * 2 ^ intShift s ≤ m ∧ m < segLo s + (k + 1) * 2 ^ intShift s := by
  constructor
  · rintro ⟨rfl, rfl⟩
    exact intMant_eq_iff.1 rfl
  · rintro ⟨hlo, hhi⟩
    have hfits : (k + 1) * 2 ^ intShift s ≤ 16 * 2 ^ intShift s := Nat.mul_le_mul_right _ hk
    obtain rfl : intSeg m = s := intSeg_eq_iff.2 ⟨by omega, by omega⟩
    exact ⟨rfl, intMant_eq_iff.2 ⟨hlo, hhi⟩⟩

theorem toNat_encShift_eq_ite (seg : BitVec 3) : (encShift seg).toNat = if seg = 0 then 1 else seg.toNat := by
  rw [encShift]
  split
  · rfl
  · rfl

theorem intShift_bounds {s : Nat} (hs : s ≤ 7) : 1 ≤ intShift s ∧ intShift s ≤ 7 :=
  ⟨le_max_right s 1, max_le hs (by decide)⟩

theorem div_step_le_of_intSeg_eq_zero {m : Nat} (h : intSeg m = 0) : m / 2 ^ intShift (intSeg m) ≤ 15 := by
  have hm := intSeg_eq_zero_iff.1 h
  have hstep : 2 ^ intShift 0 = 2 := rfl
  rw [h, hstep]
  omega

/-- Outside segment 0 the shift leaves the leading 1 and four bits. -/
theorem div_step_bounds_of_intSeg_ne_zero {m : Nat} (h : intSeg m ≠ 0) :
    16 ≤ m / 2 ^ intShift (intSeg m) ∧ m / 2 ^ intShift (intSeg m) ≤ 31 := by
  have hpos : 0 < 2 ^ intShift (intSeg m) := by positivity
  obtain ⟨hlo, hhi⟩ := intSeg_bounds m
  rw [segLo_of_ne_zero h] at hlo hhi
  exact ⟨(Nat.le_div_iff_mul_le hpos).2 hlo, Nat.le_of_lt_succ ((Nat.div_lt_iff_lt_mul hpos).2 (by omega))⟩

end Mantissa

/-- Settles O6: `shamt` is the integer form's shift, so each clause is one about the integer form. -/
theorem mantissaIsOffsetInSegment : Obligations.MantissaIsOffsetInSegment := by
  unfold Obligations.MantissaIsOffsetInSegment
  constructor
  · intro m seg shamt
    have hshift : shamt = intShift (intSeg m.toNat) := by rw [← toNat_segSel, ← toNat_encShift]
    obtain ⟨hpos, hle⟩ := intShift_bounds (intSeg_toNat_le m)
    have hzero : seg = 0 ↔ intSeg m.toNat = 0 := (segSel_eq_zero_iff m).trans intSeg_eq_zero_iff.symm
    refine ⟨toNat_encShift_eq_ite seg, hshift ▸ hpos, hshift ▸ hle, toNat_encMant _ _, fun h => ?_, fun h => ?_, ?_, ?_⟩
    · rw [hshift]
      exact div_step_le_of_intSeg_eq_zero (hzero.1 h)
    · rw [hshift]
      exact div_step_bounds_of_intSeg_ne_zero (mt hzero.2 h)
    · rw [toNat_segSel]
      exact (intSeg_bounds _).1
    · rw [toNat_encMant_segSel, toNat_segSel, hshift, intMant_eq_offset]
  · intro cfg b x M
    obtain ⟨b', hexec, hout⟩ := exists_exec_enc b x
    exact ⟨b', hexec, by rw [hout, maskCode_encodeSample, toNat_rawMant_rawOfSample, intMant_eq_offset]⟩

/-! ## The nibbles of the code (R57) -/

section Nibbles

theorem intSeg_intMag_le (X : Int) : intSeg (intMag X) ≤ 7 := by
  rw [intSeg_le_iff]
  exact Nat.lt_succ_of_le (min_le_right _ _)

theorem intMant_lt (m : Nat) : intMant m < 16 := Nat.mod_lt _ (by decide)

theorem intEncode_mod (X : Int) : intEncode X % 16 = intMant (intMag X) ^^^ 0x5 := by
  have hmant := intMant_lt (intMag X)
  rw [intEncode, Nat.xor_mod_two_pow (n := 4)]
  congr 1
  omega

/-- R57's column of high nibbles: the segment XOR 5, with the sign bit above it untouched. -/
theorem highNibble_eq : ∀ seg ≤ 7, ∀ p ≤ 1,
    (8 * p + seg) ^^^ 0x5 = [0x5, 0x4, 0x7, 0x6, 0x1, 0x0, 0x3, 0x2].getD seg 0 + 8 * p := by
  decide

theorem intEncode_div (X : Int) : intEncode X / 16 =
    [0x5, 0x4, 0x7, 0x6, 0x1, 0x0, 0x3, 0x2].getD (intSeg (intMag X)) 0 + if X < 0 then 8 else 0 := by
  have hmant := intMant_lt (intMag X)
  have hseg := intSeg_intMag_le X
  rw [intEncode, Nat.xor_div_two_pow (n := 4)]
  split
  · rw [← highNibble_eq _ hseg 1 le_rfl]
    congr 1
    omega
  · rw [← highNibble_eq _ hseg 0 (by decide)]
    congr 1
    omega

end Nibbles

/-- Settles O7: an interval is one step of its segment, and the mask acts on each nibble alone. -/
theorem eachCodeHasItsMagnitudeInterval : Obligations.EachCodeHasItsMagnitudeInterval := by
  unfold Obligations.EachCodeHasItsMagnitudeInterval
  constructor
  · intro m seg mant shamt
    have hpos : 0 < segLo seg.toNat + (mant.toNat + 1) * 2 ^ shamt := by positivity
    rw [← BitVec.toNat_inj, ← BitVec.toNat_inj, toNat_segSel, toNat_encMant_segSel, intSeg_intMant_eq_iff mant.isLt,
      Nat.lt_iff_le_pred hpos]
  · intro cfg b x X
    obtain ⟨b', hexec, hout⟩ := exists_exec_enc b x
    refine ⟨b', hexec, ?_⟩
    rw [hout, toNat_encodeSample]
    exact ⟨intEncode_div X, intEncode_mod X⟩

end Sys2Proof.Machine

/-! # The decoder, net by net (41_decoder.md R60 to R67) -/

namespace Sys2Proof.Machine

/-! ## The sign (R67) -/

theorem toNat_applySign {w : Nat} (hw : 13 ≤ w) (neg : Bool) (dmag : BitVec 12) :
    (applySign w neg dmag).toNat = if neg then (2 ^ w - dmag.toNat) % 2 ^ w else dmag.toNat := by
  have habs : (dmag.setWidth w).toNat = dmag.toNat := BitVec.toNat_setWidth_of_le (by omega)
  cases neg with
  | false => exact habs
  | true => rw [applySign, if_pos rfl, if_pos rfl, BitVec.toNat_neg, habs]

/-- Settles O12: a 12-bit magnitude and its negation both fit 13 signed bits. -/
theorem signApplicationIsExact : Obligations.SignApplicationIsExact := by
  unfold Obligations.SignApplicationIsExact
  exact fun w hw neg dmag _ => ⟨toNat_applySign hw neg dmag, toInt_applySign neg dmag hw⟩

/-! ## The integer form (R60)

Its three cases are one formula: the segment's first magnitude and an odd multiple of half the encoder's step. -/

section IntegerForm

theorem intDecMag_eq (s mt : Nat) : intDecMag s mt = segLo s + (2 * mt + 1) * 2 ^ (intShift s - 1) := by
  match s with
  | 0 => simp [intDecMag, segLo, intShift]
  | 1 => simp [intDecMag, segLo, intShift, Nat.add_assoc]
  | s + 2 => simp [intDecMag, segLo, intShift]

theorem toNat_maskCode (c : Code) : (maskCode c).toNat = c.toNat ^^^ 0x55 :=
  BitVec.toNat_xor c transmissionMask

theorem codeMag_eq_intDecMag (c : Code) :
    codeMag c = intDecMag ((c.toNat ^^^ 0x55) / 16 % 8) ((c.toNat ^^^ 0x55) % 16) := by
  rw [codeMag, toNat_decMag, ← intDecMag_eq, toNat_rawSeg, toNat_rawMant, toNat_maskCode]

theorem toInt_decodeCode_eq_intDecode {w : Nat} (hw : 13 ≤ w) (c : Code) :
    (decodeCode w c).toInt = intDecode c.toNat := by
  rw [toInt_decodeCode c hw, ← rawSign_maskCode, rawSign_eq, toNat_maskCode, codeMag_eq_intDecMag, intDecode]
  simp only [decide_eq_true_iff]

end IntegerForm

/-- Settles O10: the fields of the unmasked code are the quotients and remainders of the integer form. -/
theorem decCompletesWithIntegerForm : Obligations.DecCompletesWithIntegerForm := by
  unfold Obligations.DecCompletesWithIntegerForm
  intro cfg b c
  obtain ⟨b', hexec, -, -, hdec⟩ := exec_sides (.dec c) b
  obtain ⟨hset, hout⟩ := Block.decOutput_of_after_some hdec
  exact ⟨b', hexec, hdec.1, hset, by rw [hout, toInt_decodeCode_eq_intDecode cfg.wOut_ge]⟩

/-! ## Base and step share no bit (R63 to R66)

The base is 0 or the one bit above all bits of the step. -/

section NoCarry

/-- The lookup form of base and shift (R65). -/
theorem segBase_reconShift_eq_segInverse : ∀ seg : BitVec 3,
    ((segBase seg).toNat, (reconShift seg).toNat) = segInverse seg.toFin := by
  decide

theorem segLo_succ (i : Fin 8) : segLo (i.val + 1) = segEnd i + 1 := by
  have hpos : 0 < 2 ^ (i.val + 5) := by positivity
  rw [segEnd_eq, Nat.sub_add_cancel hpos]
  rfl

variable (seg : BitVec 3) (mant : BitVec 4)

theorem toNat_reconShift_eq_encShift_pred : (reconShift seg).toNat = (encShift seg).toNat - 1 := by
  rw [toNat_reconShift, toNat_encShift]

theorem toNat_setWidth_stepNet : ((stepNet mant (reconShift seg)).setWidth 12).toNat =
    (2 * mant.toNat + 1) * 2 ^ (reconShift seg).toNat := by
  rw [BitVec.toNat_setWidth_of_le (by decide), toNat_stepNet, toNat_reconShift]

theorem oddFactor_le : 2 * mant.toNat + 1 ≤ 31 := by
  have hmant := mant.isLt
  omega

theorem reconStep_bounds : 1 ≤ (2 * mant.toNat + 1) * 2 ^ (reconShift seg).toNat ∧
    (2 * mant.toNat + 1) * 2 ^ (reconShift seg).toNat ≤ 1984 := by
  rw [toNat_reconShift]
  exact ⟨Nat.mul_pos (by omega) (by positivity), Nat.mul_le_mul (oddFactor_le mant) (two_pow_intShift_pred_le seg)⟩

/-- Outside segment 0 the step stays below the base. -/
theorem reconStep_lt_segLo (hseg : seg.toNat ≠ 0) :
    (2 * mant.toNat + 1) * 2 ^ (reconShift seg).toNat < segLo seg.toNat := by
  have hlo : segLo seg.toNat = 32 * 2 ^ (reconShift seg).toNat := by
    rw [segLo_of_ne_zero hseg, two_pow_intShift, toNat_reconShift]
    ring
  rw [hlo]
  exact Nat.mul_lt_mul_of_pos_right (Nat.lt_succ_of_le (oddFactor_le mant)) (by positivity)

theorem segLo_and_eq_zero {s n : Nat} (h : s ≠ 0 → n < segLo s) : segLo s &&& n = 0 := by
  unfold segLo at h ⊢
  split
  · exact Nat.zero_and n
  · next hs =>
    rw [if_neg hs] at h
    rw [Nat.two_pow_and, Nat.testBit_lt_two_pow (h hs)]
    rfl

theorem segBase_and_stepNet_eq_zero : segBase seg &&& (stepNet mant (reconShift seg)).setWidth 12 = 0 := by
  apply BitVec.eq_of_toNat_eq
  rw [BitVec.toNat_and, toNat_segBase, toNat_setWidth_stepNet]
  exact segLo_and_eq_zero (reconStep_lt_segLo seg mant)

theorem decMag_eq_or : decMag seg mant = segBase seg ||| (stepNet mant (reconShift seg)).setWidth 12 :=
  BitVec.add_eq_or_of_and_eq_zero _ _ (segBase_and_stepNet_eq_zero seg mant)

theorem toNat_decMag_eq_add : (decMag seg mant).toNat =
    (segBase seg).toNat + ((stepNet mant (reconShift seg)).setWidth 12).toNat := by
  rw [toNat_decMag, toNat_segBase, toNat_setWidth_stepNet, toNat_reconShift]

theorem codeMag_eq_or (c : Code) : codeMag c =
    (segInverse (rawSeg (maskCode c)).toFin).1 |||
      (2 * (rawMant (maskCode c)).toNat + 1) * 2 ^ (segInverse (rawSeg (maskCode c)).toFin).2 := by
  rw [codeMag, decMag_eq_or, BitVec.toNat_or, toNat_setWidth_stepNet, ← segBase_reconShift_eq_segInverse]

end NoCarry

/-- Settles O11: outside segment 0 the base is one bit, above the step; in segment 0 it is 0. -/
theorem decoderSumNeverCarries : Obligations.DecoderSumNeverCarries := by
  unfold Obligations.DecoderSumNeverCarries
  constructor
  · intro seg mant base step
    have hstep : step.toNat = (2 * mant.toNat + 1) * 2 ^ (reconShift seg).toNat := toNat_setWidth_stepNet seg mant
    obtain ⟨hpos, hle⟩ := reconStep_bounds seg mant
    refine ⟨segBase_reconShift_eq_segInverse seg, toNat_reconShift_eq_encShift_pred seg, fun i hi => ?_, hstep,
      hstep ▸ hpos, hstep ▸ hle, segBase_and_stepNet_eq_zero seg mant, decMag_eq_or seg mant,
      toNat_decMag_eq_add seg mant, (decMag_bounds seg mant).2⟩
    rw [toNat_segBase, ← hi, segLo_succ]
  · intro cfg b c seg mant
    obtain ⟨b', hexec, -, -, hdec⟩ := exec_sides (.dec c) b
    obtain ⟨-, hout⟩ := Block.decOutput_of_after_some hdec
    exact ⟨b', hexec, by rw [hout, natAbs_toInt_decodeCode c cfg.wOut_ge, codeMag_eq_or]⟩

end Sys2Proof.Machine

/-! # The laws between ENC and DEC (42_roundtrip.md R71 to R78) -/

namespace Sys2Proof.Machine

/-! ## Cells

A pair of segment and mantissa is the code of one step's worth of magnitudes in a row, its cell. DEC answers the cell's
upper middle point, so RT moves a magnitude only within its cell. -/

section Cells

/-- The magnitudes of segment `s` and mantissa `k`; `mem_magnitudeCell_iff` ties it to the encoder. -/
def magnitudeCell (s k : Nat) : Set Nat :=
  Set.Ico (segLo s + k * 2 ^ intShift s) (segLo s + (k + 1) * 2 ^ intShift s)

theorem mem_magnitudeCell_iff {m s k : Nat} (hk : k < 16) :
    m ∈ magnitudeCell s k ↔ intSeg m = s ∧ intMant m = k :=
  (intSeg_intMant_eq_iff hk).symm

theorem mem_magnitudeCell_iff_int {m s k : Nat} : m ∈ magnitudeCell s k ↔
    (segLo s + k * 2 ^ intShift s : Int) ≤ m ∧ (m : Int) < segLo s + k * 2 ^ intShift s + 2 ^ intShift s := by
  rw [magnitudeCell, Set.mem_Ico, Nat.succ_mul, ← Nat.add_assoc]
  norm_cast

theorem mem_own_cell (m : Nat) : m ∈ magnitudeCell (intSeg m) (intMant m) :=
  (mem_magnitudeCell_iff (intMant_lt m)).2 ⟨rfl, rfl⟩

theorem middle_mem_magnitudeCell (s k : Nat) :
    segLo s + (2 * k + 1) * 2 ^ (intShift s - 1) ∈ magnitudeCell s k := by
  have hhalf : 0 < 2 ^ (intShift s - 1) := by positivity
  rw [magnitudeCell, two_pow_intShift]
  constructor <;> linarith

theorem intRoundMag_mem_cell (m : Nat) : intRoundMag m ∈ magnitudeCell (intSeg m) (intMant m) :=
  intRoundMag_eq m ▸ middle_mem_magnitudeCell _ _

theorem intRoundMag_eq_of_mem_cell {m n : Nat} (h : n ∈ magnitudeCell (intSeg m) (intMant m)) :
    intRoundMag n = intRoundMag m := by
  obtain ⟨hseg, hmant⟩ := (mem_magnitudeCell_iff (intMant_lt m)).1 h
  rw [intRoundMag, intRoundMag, hseg, hmant]

/-- A magnitude lies less than half a step above its cell's middle point, and half a step below it at most. -/
theorem intRoundMag_error (m : Nat) :
    m < intRoundMag m + 2 ^ (intShift (intSeg m) - 1) ∧ intRoundMag m ≤ m + 2 ^ (intShift (intSeg m) - 1) := by
  obtain ⟨hlo, hhi⟩ := mem_own_cell m
  rw [two_pow_intShift] at hlo hhi
  rw [intRoundMag_eq]
  constructor <;> linarith

/-- Were the image of the larger magnitude below the image of the smaller, one of the two cells would reach into the
other, since a cell has no gaps. -/
theorem intRoundMag_mono : Monotone intRoundMag := by
  intro m n hmn
  by_contra! hlt
  obtain ⟨hlom, -⟩ := mem_own_cell m
  obtain ⟨-, hhin⟩ := mem_own_cell n
  obtain ⟨-, hhim⟩ := intRoundMag_mem_cell m
  obtain ⟨hlon, -⟩ := intRoundMag_mem_cell n
  obtain hle | hgt := le_or_gt (intRoundMag n) m
  · have hm : intRoundMag m = intRoundMag n := intRoundMag_eq_of_mem_cell ⟨hlon.trans hle, hmn.trans_lt hhin⟩
    omega
  · have hmid : intRoundMag (intRoundMag n) = intRoundMag m :=
      intRoundMag_eq_of_mem_cell ⟨hlom.trans hgt.le, hlt.trans hhim⟩
    have hidem : intRoundMag (intRoundMag n) = intRoundMag n := intRoundMag_eq_of_mem_cell (intRoundMag_mem_cell n)
    omega

end Cells

/-! ## The closed form of RT on integers -/

section ClosedForm

variable {x : Int}

theorem intRoundTrip_of_nonneg (hx : 0 ≤ x) : intRoundTrip x = intRoundMag (intMag x) :=
  if_neg (not_lt.2 hx)

theorem intRoundTrip_of_neg (hx : x < 0) : intRoundTrip x = -(intRoundMag (intMag x) : Int) :=
  if_pos hx

theorem intMag_neg (x : Int) : intMag (-x) = intMag x := by
  rw [intMag, Int.natAbs_neg, intMag]

theorem intMag_of_natAbs_le (hx : x.natAbs ≤ 4095) : intMag x = x.natAbs :=
  min_eq_left hx

theorem intRoundTrip_neg_of_pos (hx : 0 < x) : intRoundTrip (-x) = -intRoundTrip x := by
  rw [intRoundTrip_of_neg (by omega), intRoundTrip_of_nonneg hx.le, intMag_neg]

theorem intRoundTrip_mono : Monotone intRoundTrip := by
  intro c a hca
  obtain hc | hc := lt_or_ge c 0
  · obtain ha | ha := lt_or_ge a 0
    · have hmag : intMag a ≤ intMag c := min_le_min_right _ (by omega)
      have hround := intRoundMag_mono hmag
      rw [intRoundTrip_of_neg hc, intRoundTrip_of_neg ha]
      omega
    · rw [intRoundTrip_of_neg hc, intRoundTrip_of_nonneg ha]
      omega
  · have ha : 0 ≤ a := hc.trans hca
    have hmag : intMag c ≤ intMag a := min_le_min_right _ (by omega)
    rw [intRoundTrip_of_nonneg hc, intRoundTrip_of_nonneg ha]
    exact_mod_cast intRoundMag_mono hmag

end ClosedForm

/-! ## Which samples give a code (R77) -/

section Preimage

/-- The magnitudes that have the segment and mantissa of a wire code. -/
def codeCell (c : Code) : Set Nat :=
  magnitudeCell (rawSeg (maskCode c)).toNat (rawMant (maskCode c)).toNat

variable {w : Nat} (c : Code)

theorem codeMag_mem_codeCell : codeMag c ∈ codeCell c := by
  rw [codeMag, toNat_decMag]
  exact middle_mem_magnitudeCell _ _

theorem code_eq_iff_fields {c c' : Code} : c = c' ↔
    rawSign (maskCode c) = rawSign (maskCode c') ∧ rawSeg (maskCode c) = rawSeg (maskCode c') ∧
      rawMant (maskCode c) = rawMant (maskCode c') := by
  constructor
  · rintro rfl
    exact ⟨rfl, rfl, rfl⟩
  · rintro ⟨hsign, hseg, hmant⟩
    rw [← maskCode_maskCode c, ← packRaw_fields (maskCode c), hsign, hseg, hmant, packRaw_fields, maskCode_maskCode]

/-- ENC gives a code to the samples of its sign whose clamped magnitude is in its cell. -/
theorem encodeSample_eq_iff (x : BitVec w) : encodeSample x = c ↔
    decide (x.toInt < 0) = rawSign (maskCode c) ∧ intMag x.toInt ∈ codeCell c := by
  rw [code_eq_iff_fields, maskCode_encodeSample, rawSign_rawOfSample, ← BitVec.toNat_inj, ← BitVec.toNat_inj,
    toNat_rawSeg_rawOfSample, toNat_rawMant_rawOfSample, codeCell, mem_magnitudeCell_iff (rawMant (maskCode c)).isLt]

theorem natAbs_toInt_decodeCode_bounds {v : Nat} (hv : 13 ≤ v) :
    1 ≤ (decodeCode v c).toInt.natAbs ∧ (decodeCode v c).toInt.natAbs ≤ 4032 := by
  rw [natAbs_toInt_decodeCode c hv]
  exact codeMag_bounds c

/-- A value of DEC is in the cell of its code and, being nonzero, has its sign (R76). -/
theorem encodeSample_of_toInt_eq {v : Nat} (hv : 13 ≤ v) {x : BitVec w} (hx : x.toInt = (decodeCode v c).toInt) :
    encodeSample x = c := by
  obtain ⟨-, hle⟩ := natAbs_toInt_decodeCode_bounds c hv
  rw [encodeSample_eq_iff, hx, intMag_of_natAbs_le (by omega), natAbs_toInt_decodeCode c hv]
  refine ⟨?_, codeMag_mem_codeCell c⟩
  rw [rawSign_maskCode, Bool.eq_iff_iff, decide_eq_true_iff, toInt_decodeCode_neg_iff c hv]

/-- `encodeSample_eq_iff` for a code whose sign and cell are known. -/
theorem encodeSample_eq_iff_of_cell {c : Code} {neg : Prop} [Decidable neg] {lo hi : Nat}
    (hsign : rawSign (maskCode c) = decide neg) (hcell : codeCell c = Set.Ico lo hi) (x : BitVec w) :
    encodeSample x = c ↔
      (x.toInt < 0 ↔ neg) ∧ lo ≤ min x.toInt.natAbs 4095 ∧ min x.toInt.natAbs 4095 < hi := by
  rw [encodeSample_eq_iff, hsign, decide_eq_decide, hcell, Set.mem_Ico, intMag]

theorem encodeSample_eq_0xD5_iff (x : BitVec w) : encodeSample x = 0xD5#8 ↔ x.toInt = -1 := by
  rw [encodeSample_eq_iff_of_cell (neg := True) (lo := 0) (hi := 2) rfl rfl, iff_true]
  omega

theorem encodeSample_eq_0x2A_iff (x : BitVec w) : encodeSample x = 0x2A#8 ↔ 3968 ≤ x.toInt := by
  rw [encodeSample_eq_iff_of_cell (neg := False) (lo := 3968) (hi := 4096) rfl rfl, iff_false]
  omega

theorem encodeSample_eq_0xAA_iff (x : BitVec w) : encodeSample x = 0xAA#8 ↔ x.toInt ≤ -3968 := by
  rw [encodeSample_eq_iff_of_cell (neg := True) (lo := 3968) (hi := 4096) rfl rfl, iff_true]
  omega

theorem encodeSample_eq_0x55_iff (x : BitVec w) : encodeSample x = 0x55#8 ↔ x.toInt = 0 ∨ x.toInt = 1 := by
  rw [encodeSample_eq_iff_of_cell (neg := False) (lo := 0) (hi := 2) rfl rfl, iff_false]
  omega

theorem packRaw_xor_packRaw_not (p : Bool) (seg : BitVec 3) (mant : BitVec 4) :
    packRaw p seg mant ^^^ packRaw (!p) seg mant = 0x80#8 := by
  revert p seg mant
  decide

/-- Masking two codes leaves their difference. -/
theorem maskCode_xor_maskCode (u v : Code) : maskCode u ^^^ maskCode v = u ^^^ v := by
  rw [maskCode, maskCode, BitVec.xor_assoc, BitVec.xor_comm v, ← BitVec.xor_assoc transmissionMask, BitVec.xor_self,
    BitVec.zero_xor]

/-- Samples of opposite sign and equal magnitude differ in bit 7 of the code alone (R73). -/
theorem encodeSample_xor_of_toInt_eq_neg {x y : BitVec w} (hx : 0 < x.toInt) (hy : y.toInt = -x.toInt) :
    encodeSample x ^^^ encodeSample y = 0x80#8 := by
  have hmag : mag12 (magFull y) = mag12 (magFull x) := by
    apply BitVec.eq_of_toNat_eq
    rw [toNat_mag12_magFull, toNat_mag12_magFull, hy, intMag_neg]
  have hsign : signNet y = !signNet x := by
    rw [signNet, signNet, BitVec.msb_eq_toInt, BitVec.msb_eq_toInt, ← decide_not]
    exact decide_eq_decide.2 (by omega)
  rw [encodeSample, encodeSample, maskCode_xor_maskCode, rawOfSample, rawOfSample, hmag, hsign]
  exact packRaw_xor_packRaw_not _ _ _

end Preimage

/-! ## What the three instructions leave on the outputs -/

section Outputs

variable {cfg : Config} (b : Block cfg) {x : Int}

theorem toInt_samplePattern (h : sampleInRange cfg.wIn x = true) : (samplePattern cfg.wIn x).toInt = x :=
  sampleValue_samplePattern (wIn_pos cfg) h

/-- The narrowest port holds every integer of 13 bits (00_scope.md R6). -/
theorem sampleInRange_of_bounds (hlo : -4096 ≤ x) (hhi : x < 4096) : sampleInRange cfg.wIn x = true := by
  have hpow : (2 : Int) ^ 12 ≤ 2 ^ (cfg.wIn - 1) := pow_le_pow_right₀ (by decide) (Nat.le_sub_one_of_lt cfg.wIn_ge)
  exact sampleInRange_iff.2 ⟨by omega, by omega⟩

theorem sampleInRange_decodeCode (c : Code) : sampleInRange cfg.wIn (decodeCode cfg.wOut c).toInt = true := by
  obtain ⟨-, hle⟩ := natAbs_toInt_decodeCode_bounds c cfg.wOut_ge
  exact sampleInRange_of_bounds (by omega) (by omega)

theorem encodeSample_samplePattern_decodeCode (c : Code) :
    encodeSample (samplePattern cfg.wIn (decodeCode cfg.wOut c).toInt) = c :=
  encodeSample_of_toInt_eq c cfg.wOut_ge (toInt_samplePattern (sampleInRange_decodeCode c))

theorem exists_exec_dec (c : Code) : ∃ b' : Block cfg, exec (.dec c) ⟨cfg, b⟩ = .next ⟨cfg, b'⟩ ∧
    b'.decOut = decodeCode cfg.wOut c := by
  obtain ⟨b', hexec, -, -, hdec⟩ := exec_sides (.dec c) b
  obtain ⟨-, hout⟩ := Block.decOutput_of_after_some hdec
  exact ⟨b', hexec, hout⟩

theorem exists_exec_rt (x : Int) : ∃ b' : Block cfg, exec (.rt x) ⟨cfg, b⟩ = .next ⟨cfg, b'⟩ ∧
    b'.encOut = encodeSample (samplePattern cfg.wIn x) ∧
    b'.decOut = decodeCode cfg.wOut (encodeSample (samplePattern cfg.wIn x)) := by
  obtain ⟨b', hexec, -, henc, hdec⟩ := exec_sides (.rt x) b
  obtain ⟨-, hcode, -⟩ := Block.encOutputs_of_after_some henc
  obtain ⟨-, hout⟩ := Block.decOutput_of_after_some hdec
  exact ⟨b', hexec, hcode, hout⟩

/-- On an operand in range RT is its closed form of the operand itself (R70). -/
theorem exists_exec_rt_of_inRange (h : sampleInRange cfg.wIn x = true) :
    ∃ b' : Block cfg, exec (.rt x) ⟨cfg, b⟩ = .next ⟨cfg, b'⟩ ∧
      b'.encOut = encodeSample (samplePattern cfg.wIn x) ∧ b'.decOut.toInt = intRoundTrip x := by
  obtain ⟨b', hexec, hcode, hout⟩ := exists_exec_rt b x
  exact ⟨b', hexec, hcode, by rw [hout, toInt_decodeCode_encodeSample cfg.wOut_ge, toInt_samplePattern h]⟩

end Outputs

/-- Settles O15: RT leaves on `dec_in` the masked raw code. -/
theorem maskUndoesItself : Obligations.MaskUndoesItself := by
  unfold Obligations.MaskUndoesItself
  refine ⟨fun v => ⟨rfl, maskCode_maskCode v⟩, fun cfg b x => ?_⟩
  obtain ⟨b', hexec, -, -, hdec⟩ := exec_sides (.rt x) b
  have hin : b'.decIn = .ofBits (encodeSample (samplePattern cfg.wIn x)) := hdec.1
  exact ⟨b', hexec, by rw [hin, Signal.bits_ofBits, maskCode_encodeSample]⟩

/-- Settles O16: the last cell of either sign holds every magnitude from 3968 up, the clamped ones as 4095. -/
theorem clampBoundaryCodes : Obligations.ClampBoundaryCodes := by
  unfold Obligations.ClampBoundaryCodes
  intro cfg b x hx
  obtain ⟨b', hexec, hout⟩ := exists_exec_enc b x
  refine ⟨b', hexec, ?_⟩
  rw [hout, encodeSample_eq_0x2A_iff, encodeSample_eq_0xAA_iff, toInt_samplePattern hx]
  omega

/-- Settles O17: a nonzero sample and its negative have one magnitude and opposite signs; 0 counts as positive. -/
theorem signSymmetryAboveZero : Obligations.SignSymmetryAboveZero := by
  unfold Obligations.SignSymmetryAboveZero
  refine ⟨fun cfg b m hpos hle => ?_, fun cfg b => ?_⟩
  · have hm : sampleInRange cfg.wIn m = true := sampleInRange_iff.2 ⟨by omega, by omega⟩
    have hneg : sampleInRange cfg.wIn (-m) = true := sampleInRange_iff.2 ⟨by omega, by omega⟩
    have hval := toInt_samplePattern hm
    obtain ⟨p, hexecp, hcodep, houtp⟩ := exists_exec_rt_of_inRange b hm
    obtain ⟨n, hexecn, hcoden, houtn⟩ := exists_exec_rt_of_inRange b hneg
    refine ⟨p, n, hexecp, hexecn, ?_, ?_⟩
    · rw [hcodep, hcoden]
      exact encodeSample_xor_of_toInt_eq_neg (by omega) (by rw [toInt_samplePattern hneg, hval])
    · rw [houtn, houtp, intRoundTrip_neg_of_pos hpos]
  · have hzero : sampleInRange cfg.wIn 0 = true := sampleInRange_of_bounds (by decide) (by decide)
    obtain ⟨b', hexec, hcode, hout⟩ := exists_exec_rt_of_inRange b hzero
    refine ⟨b', hexec, ?_, hout⟩
    rw [hcode, encodeSample_eq_0x55_iff]
    exact .inl (toInt_samplePattern hzero)

/-- Settles O18: the error on the magnitude is that of the cell's middle point, and the sign mirrors it. -/
theorem roundTripErrorAtMostHalfStep : Obligations.RoundTripErrorAtMostHalfStep := by
  unfold Obligations.RoundTripErrorAtMostHalfStep
  intro cfg b x hx
  obtain ⟨b', hexec, -, hout⟩ := exists_exec_rt_of_inRange b hx
  refine ⟨b', hexec, ?_⟩
  intro half y
  obtain ⟨habove, hbelow⟩ := intRoundMag_error (intMag x)
  have hhalf : half = ((2 ^ (intShift (intSeg (intMag x)) - 1) : Nat) : Int) := by simp [half]
  have hmag : intMag x = min x.natAbs 4095 := rfl
  have hy : y = intRoundTrip x := hout
  obtain hneg | hnonneg := lt_or_ge x 0
  · rw [intRoundTrip_of_neg hneg] at hy
    omega
  · rw [intRoundTrip_of_nonneg hnonneg] at hy
    omega

/-- Settles O19: RT is monotone in its closed form; the code byte of 0 is below that of -1, which has the sign bit. -/
theorem roundTripIsMonotone : Obligations.RoundTripIsMonotone := by
  unfold Obligations.RoundTripIsMonotone
  refine ⟨fun cfg b a c ha hc hlt => ?_, fun cfg b => ?_⟩
  · obtain ⟨p, hexecp, -, houtp⟩ := exists_exec_rt_of_inRange b ha
    obtain ⟨q, hexecq, -, houtq⟩ := exists_exec_rt_of_inRange b hc
    refine ⟨p, q, hexecp, hexecq, ?_⟩
    rw [houtp, houtq]
    exact intRoundTrip_mono hlt.le
  · have hzero : sampleInRange cfg.wIn 0 = true := sampleInRange_of_bounds (by decide) (by decide)
    have hminus : sampleInRange cfg.wIn (-1) = true := sampleInRange_of_bounds (by decide) (by decide)
    obtain ⟨p, hexecp, hp⟩ := exists_exec_enc b 0
    obtain ⟨q, hexecq, hq⟩ := exists_exec_enc b (-1)
    refine ⟨0, -1, p, q, hzero, hminus, by decide, hexecp, hexecq, ?_⟩
    rw [hp, hq, (encodeSample_eq_0x55_iff _).2 (.inl (toInt_samplePattern hzero)),
      (encodeSample_eq_0xD5_iff _).2 (toInt_samplePattern hminus)]
    decide

/-- Settles O20: DEC's value is the middle point of its code's own cell. -/
theorem decThenEncIsIdentity : Obligations.DecThenEncIsIdentity := by
  unfold Obligations.DecThenEncIsIdentity
  intro cfg b c
  obtain ⟨b₁, hdec, hout₁⟩ := exists_exec_dec b c
  obtain ⟨b', henc, hout⟩ := exists_exec_enc b₁ b₁.decOut.toInt
  rw [hout₁, encodeSample_samplePattern_decodeCode] at hout
  exact ⟨b₁, b', hdec, hout₁ ▸ sampleInRange_decodeCode c, henc, hout⟩

/-- Settles O21: a sample that is not clamped is in the cell itself; the last cell also takes the clamped ones. -/
theorem encPreimageOfEachCode : Obligations.EncPreimageOfEachCode := by
  unfold Obligations.EncPreimageOfEachCode
  refine ⟨fun cfg b c => ?_, fun cfg b c x hlo hhi => ?_, fun cfg b x hx => ?_⟩
  · obtain ⟨b', hexec, hout⟩ := exists_exec_enc b (decodeCode cfg.wOut c).toInt
    exact ⟨b', hexec, hout.trans (encodeSample_samplePattern_decodeCode c)⟩
  · intro u shamt lo
    obtain ⟨b', hexec, hout⟩ := exists_exec_enc b x
    refine ⟨b', hexec, ?_⟩
    rw [hout, encodeSample_eq_iff, toInt_samplePattern (sampleInRange_of_bounds (by omega) (by omega)),
      intMag_of_natAbs_le (by omega), codeCell, mem_magnitudeCell_iff_int]
    change _ = rawSign u ∧ lo ≤ _ ∧ _ < lo + 2 ^ shamt ↔ _
    cases rawSign u with
    | true =>
      rw [decide_eq_true_iff, if_pos rfl]
      omega
    | false =>
      rw [decide_eq_false_iff_not, if_neg Bool.false_ne_true]
      omega
  · obtain ⟨b', hexec, hout⟩ := exists_exec_enc b x
    refine ⟨b', hexec, ?_⟩
    rw [hout, encodeSample_eq_0xD5_iff, encodeSample_eq_0x2A_iff, encodeSample_eq_0xAA_iff, toInt_samplePattern hx]
    exact ⟨Iff.rfl, Iff.rfl, Iff.rfl⟩

/-- Settles O22: RT's result is a value of DEC, and a value of DEC is given its own code; no value of DEC is 0. -/
theorem roundTripFixedPoints : Obligations.RoundTripFixedPoints := by
  unfold Obligations.RoundTripFixedPoints
  intro cfg b x hx
  obtain ⟨b', hexec, -, hout⟩ := exists_exec_rt b x
  refine ⟨b', hexec, ⟨fun hfix => ?_, ?_⟩, ?_⟩
  · obtain ⟨b'', hdec, hout''⟩ := exists_exec_dec b (encodeSample (samplePattern cfg.wIn x))
    exact ⟨_, b'', hdec, by rw [hout'', ← hout, hfix]⟩
  · rintro ⟨c, b'', hdec, hval⟩
    obtain ⟨t, hdec', hout''⟩ := exists_exec_dec b c
    obtain rfl : t = b'' := by simpa [hdec'] using hdec
    rw [hout''] at hval
    rw [hout, ← hval, encodeSample_samplePattern_decodeCode]
  · rintro rfl hzero
    obtain ⟨hpos, -⟩ := natAbs_toInt_decodeCode_bounds (encodeSample (samplePattern cfg.wIn 0)) cfg.wOut_ge
    rw [← hout, hzero] at hpos
    exact absurd hpos (by decide)

end Sys2Proof.Machine

/-! # Stopping: which steps are refused, and under the name of which port (60_exceptions.md R79;
70_reset_and_hazards.md R93, R97) -/

namespace Sys2Proof.Machine

/-! ## The port a refusal names -/

section Refusals

variable {cfg : Config} {b : Block cfg} {rest : List (HostEvent cfg.wIn)} {p : Port}

/-- `p` is the port that a refusal of `e` names: `e` drives an undefined bit there, and `enc_in` comes before `dec_in`
when it does so on both (log entry 8). -/
def RefusalNames {w : Nat} (p : Port) (e : HostEvent w) : Prop :=
  drivesUndefined p e = true ∧ (p = .decIn → drivesUndefined .encIn e = false)

theorem eventDefined_eq_false_of_drivesUndefined {w : Nat} {e : HostEvent w} (h : drivesUndefined p e = true) :
    eventDefined e = false :=
  Bool.eq_false_iff.2 fun he => absurd h (by simp [(eventDefined_iff_drivesUndefined e).1 he p])

theorem exists_refusalNames {w : Nat} {e : HostEvent w} (h : eventDefined e = false) : ∃ p, RefusalNames p e := by
  cases henc : drivesUndefined .encIn e with
  | true => exact ⟨.encIn, henc, nofun⟩
  | false =>
    cases hdec : drivesUndefined .decIn e with
    | true => exact ⟨.decIn, hdec, fun _ => henc⟩
    | false =>
      have he : eventDefined e = true := (eventDefined_iff_drivesUndefined e).2 (Port.rec henc hdec)
      exact absurd he (by simp [h])

theorem decode_eq_error_of_drivesUndefined {w : Nat} {r : Request w} (h : drivesUndefined p (.transact r) = true) :
    decode r = .error (.undefinedBits p) := by
  cases r with
  | onEncIn v =>
    obtain ⟨rfl, hv⟩ : p = .encIn ∧ v.isDefined = false := by simpa [drivesUndefined] using h
    simp [decode, hv]
  | onDecIn v =>
    obtain ⟨rfl, hv⟩ : p = .decIn ∧ v.isDefined = false := by simpa [drivesUndefined] using h
    simp [decode, hv]
  | chained v =>
    obtain ⟨rfl, hv⟩ : p = .encIn ∧ v.isDefined = false := by simpa [drivesUndefined] using h
    simp [decode, hv]

theorem Block.acceptDrive_of_refusalNames {d : Drive cfg.wIn} (h : RefusalNames p (.drive d)) :
    b.acceptDrive d = .refused (.undefinedInput p) := by
  obtain ⟨hp, hfirst⟩ := h
  cases p with
  | encIn =>
    have henc : driveDefined d.enc = false := by simpa [drivesUndefined] using hp
    simp [Block.acceptDrive, henc]
  | decIn =>
    have hdec : driveDefined d.dec = false := by simpa [drivesUndefined] using hp
    have henc : driveDefined d.enc = true := by simpa [drivesUndefined] using hfirst rfl
    simp [Block.acceptDrive, henc, hdec]

theorem step_of_decode_error {r : Request cfg.wIn} {err : DecodeError} (h : b.pending = .transact r :: rest)
    (hdec : decode r = .error err) : step ⟨cfg, b⟩ = .refused (refusalOf err) := by
  simp [step, h, hdec]

theorem step_of_refusalNames {e : HostEvent cfg.wIn} (h : b.pending = e :: rest) (hp : RefusalNames p e) :
    step ⟨cfg, b⟩ = .refused (.undefinedInput p) := by
  cases e with
  | transact r => exact step_of_decode_error h (decode_eq_error_of_drivesUndefined hp.1)
  | drive d => exact (step_of_drive h).trans (Block.acceptDrive_of_refusalNames hp)
  | wait => exact absurd hp.1 Bool.false_ne_true

/-- A step goes on, the host's next action being none or a defined one, or is refused under the port it names. -/
theorem step_next_or_refused (b : Block cfg) :
    ((∃ t, step ⟨cfg, b⟩ = .next t) ∧ ∀ e rest, b.pending = e :: rest → eventDefined e = true) ∨
    (∃ p e rest, step ⟨cfg, b⟩ = .refused (.undefinedInput p) ∧ b.pending = e :: rest ∧ RefusalNames p e) := by
  cases h : b.pending with
  | nil => exact .inl ⟨⟨_, step_of_no_event h⟩, nofun⟩
  | cons e rest =>
    cases he : eventDefined e with
    | true =>
      refine .inl ⟨step_of_eventDefined h he, fun e' rest' h' => ?_⟩
      obtain ⟨rfl, -⟩ := List.cons.inj h'
      exact he
    | false =>
      obtain ⟨p, hp⟩ := exists_refusalNames he
      exact .inr ⟨p, e, rest, step_of_refusalNames h hp, rfl, hp⟩

theorem step_next_iff :
    (∃ t, step ⟨cfg, b⟩ = .next t) ↔ ∀ e rest, b.pending = e :: rest → eventDefined e = true := by
  obtain ⟨hnext, hdef⟩ | ⟨p, e, rest, hstep, h, hp⟩ := step_next_or_refused b
  · exact iff_of_true hnext hdef
  · refine iff_of_false (by simp [hstep]) fun hdef => ?_
    exact absurd (hdef e rest h) (by simp [eventDefined_eq_false_of_drivesUndefined hp.1])

theorem step_refused_iff {r : Refusal} :
    step ⟨cfg, b⟩ = .refused r ↔ ∃ p e rest, r = .undefinedInput p ∧ b.pending = e :: rest ∧ RefusalNames p e := by
  constructor
  · intro hr
    obtain ⟨⟨t, hstep⟩, -⟩ | ⟨p, e, rest, hstep, h, hp⟩ := step_next_or_refused b
    · exact absurd (hstep.symm.trans hr) nofun
    · exact ⟨p, e, rest, Host.Outcome.refused.inj (hr.symm.trans hstep), h, hp⟩
  · rintro ⟨p, e, rest, rfl, h, hp⟩
    exact step_of_refusalNames h hp

theorem step_ne_fault (f : Fault) : step ⟨cfg, b⟩ ≠ .fault f := by
  obtain ⟨⟨t, hstep⟩, -⟩ | ⟨p, e, rest, hstep, -, -⟩ := step_next_or_refused b <;> simp [hstep]

end Refusals

/-- Settles O30: an undefined bit is refused under the name of its port, and every other action runs. -/
theorem stepRefusesExactlyUndefinedInputs : Obligations.StepRefusesExactlyUndefinedInputs := by
  unfold Obligations.StepRefusesExactlyUndefinedInputs
  refine fun cfg b => ⟨step_next_iff, fun r => step_refused_iff.trans ⟨?_, ?_⟩, step_ne_fault⟩
  · rintro ⟨p, e, rest, hr, h, hp⟩
    exact ⟨p, e, rest, hr, h, eventDefined_eq_false_of_drivesUndefined hp.1, hp⟩
  · rintro ⟨p, e, rest, hr, h, -, hp⟩
    exact ⟨p, e, rest, hr, h, hp⟩

/-! ## A host that keeps its first duty (R93) -/

section HostDriven

variable {cfg : Config} {b : Block cfg}

theorem Block.hostDriven_iff : b.hostDriven = true ↔ ∀ e ∈ b.pending, eventDefined e = true :=
  List.all_eq_true

/-- A step of a host that drives defined values goes on, and what is left of the script is still defined. -/
theorem exists_step_of_hostDriven (hb : b.hostDriven = true) :
    ∃ b' : Block cfg, step ⟨cfg, b⟩ = .next ⟨cfg, b'⟩ ∧ b'.hostDriven = true := by
  have hdef := Block.hostDriven_iff.1 hb
  obtain ⟨t, hstep⟩ := (step_next_iff (b := b)).2 fun e rest h => hdef e (by simp [h])
  obtain ⟨b', rfl, hpend, -⟩ := step_next_sides hstep
  refine ⟨b', hstep, Block.hostDriven_iff.2 fun e he => hdef e ?_⟩
  rw [hpend] at he
  exact List.mem_of_mem_tail he

end HostDriven

/-- Settles O31, by induction on the number of steps. -/
theorem definedHostIsNeverStopped : Obligations.DefinedHostIsNeverStopped := by
  unfold Obligations.DefinedHostIsNeverStopped
  intro k cfg
  induction k with
  | zero => exact fun b hb => ⟨b, rfl, hb⟩
  | succ k ih =>
    intro b hb
    obtain ⟨b₁, hstep, hb₁⟩ := exists_step_of_hostDriven hb
    obtain ⟨b', hrun, hb'⟩ := ih b₁ hb₁
    exact ⟨b', hrun.cons hstep, hb'⟩

end Sys2Proof.Machine

/-! # Settling: nothing is driven at power-up, a bare drive frees the outputs, a wait settles them
(70_reset_and_hazards.md R91, R92, R94) -/

namespace Sys2Proof.Machine

/-! ## The ports at power-up -/

theorem signalWhole_undriven (w : Nat) : signalWhole (Signal.undriven w) = true := by
  simp [signalWhole]

theorem Block.powerUp_portsWhole (cfg : Config) : (Block.powerUp cfg).portsWhole = true :=
  Block.portsWhole_iff.2 ⟨signalWhole_undriven cfg.wIn, signalWhole_undriven 8⟩

/-- Settles O33: at power-up nothing drives either port. -/
theorem powerUpPortsWhole : Obligations.PowerUpPortsWhole := by
  unfold Obligations.PowerUpPortsWhole
  exact ⟨Block.powerUp_portsWhole Config.default, Block.powerUp_portsWhole⟩

/-! ## A bare drive and a wait, one port at a time -/

section Settling

variable {cfg : Config} {b : Block cfg} {d : Drive cfg.wIn}

theorem Block.encClamp_of_not_settled (h : b.encSettled = false) :
    b.encClamp = if cfg.hasClampFlag then some (Config.unsettledEncClamp b.draw) else none := by
  simp [Block.encClamp, h]

/-- The outputs of a driven `enc_in` show one draw of free values. -/
theorem Block.applyDrive_enc_some {v : Signal cfg.wIn} (h : d.enc = some v) :
    (b.applyDrive d).encIn = v ∧ (b.applyDrive d).encSettled = false ∧
      ∃ n, (b.applyDrive d).encOut = Config.unsettledEncOut n ∧
        (b.applyDrive d).encClamp = if cfg.hasClampFlag then some (Config.unsettledEncClamp n) else none := by
  obtain ⟨hset, hout⟩ := b.applyDrive_enc_unsettled h
  exact ⟨by simp [h], hset, _, hout, Block.encClamp_of_not_settled hset⟩

theorem Block.applyDrive_enc_none (h : d.enc = none) :
    (b.applyDrive d).encIn = b.encIn ∧ (b.applyDrive d).encSettled = b.encSettled := by
  simp [Block.encSettled, h]

theorem Block.applyDrive_dec_some {c : Signal 8} (h : d.dec = some c) :
    (b.applyDrive d).decIn = c ∧ (b.applyDrive d).decSettled = false ∧
      ∃ n, (b.applyDrive d).decOut = Config.unsettledDecOut cfg.wOut n := by
  obtain ⟨hset, hout⟩ := b.applyDrive_dec_unsettled h
  exact ⟨by simp [h], hset, _, hout⟩

theorem Block.applyDrive_dec_none (h : d.dec = none) :
    (b.applyDrive d).decIn = b.decIn ∧ (b.applyDrive d).decSettled = b.decSettled := by
  simp [Block.decSettled, h]

/-- A wait makes of a defined value on `enc_in` what a transaction with that value would have left there. -/
theorem Block.settle_encSide (b : Block cfg) (h : b.encIn.isDefined = true) :
    b.encSide.After (some b.encIn.bits) b.settle.encSide :=
  ⟨Signal.eq_ofBits_of_isDefined h, rfl⟩

/-- The same for `dec_in`. -/
theorem Block.settle_decSide (b : Block cfg) (h : b.decIn.isDefined = true) :
    b.decSide.After (some b.decIn.bits) b.settle.decSide :=
  ⟨Signal.eq_ofBits_of_isDefined h, rfl⟩

end Settling

/-- Settles O35: the step after a defined drive is `applyDrive`, which frees the ports it names and no other, and the
step after a wait is `settle`, after which a defined input stands as if a transaction had driven it. -/
theorem outputsAreFreeUntilSettled : Obligations.OutputsAreFreeUntilSettled := by
  unfold Obligations.OutputsAreFreeUntilSettled
  constructor
  · intro cfg b d rest hp hd
    obtain ⟨henc, hdec⟩ : driveDefined d.enc = true ∧ driveDefined d.dec = true := by simpa [eventDefined] using hd
    exact ⟨_, step_of_defined_drive hp henc hdec, fun _ => Block.applyDrive_enc_some, Block.applyDrive_enc_none,
      fun _ => Block.applyDrive_dec_some, Block.applyDrive_dec_none⟩
  · intro cfg b rest hp
    exact ⟨_, step_of_wait hp, rfl, rfl, fun h => Block.encOutputs_of_after_some (b.popEvent.settle_encSide h),
      fun h => Block.decOutput_of_after_some (b.popEvent.settle_decSide h)⟩

end Sys2Proof.Machine
